-- ==== Sys2Proof/Word.lean ====
section
/-! DEFINITION. The word type, its unsigned and signed readings, and the fixed-point value (spec/00_scope.md R7, R8;
spec/10_state.md R22). -/

namespace Sys2Proof

/-- A word of `w` bits; bit 0 is the least significant, bit `w-1` the sign bit (R7). -/
abbrev Word (w : Nat) := BitVec w

/-- `uval(x)`: the unsigned integer a bit vector spells (R7). -/
abbrev uval {w : Nat} (x : Word w) : Nat := x.toNat

/-- `sval_W(x)`: the two's-complement value of a word (R7). -/
abbrev sval {w : Nat} (x : Word w) : Int := x.toInt

/-- `wrap_W(z)`: the word whose `uval` is `z mod 2^W` (R7). -/
abbrev wrap (w : Nat) (z : Int) : Word w := BitVec.ofInt w z

/-- `zext_W(v)`: an unsigned value widened with zeros (R7); used only where `W` is at least the width of `v`. -/
abbrev zext (w : Nat) {k : Nat} (v : BitVec k) : Word w := v.setWidth w

/-- `MIN`, the most negative word (R5). -/
abbrev minWord (w : Nat) : Word w := BitVec.intMin w

/-- `MAX`, the greatest signed word (R5). -/
abbrev maxWord (w : Nat) : Word w := BitVec.intMax w

/-- One Fixed-Point Value (R22): the sign flag (R23), the packed integer of `2n` bits (R24) and the decimal magnitude as an
integer part `mi` and a fraction `mf` scaled by `10^n` (R25). -/
structure FxVal (n w : Nat) where
  sign : Bool
  packed : BitVec (2 * n)
  mi : Word w
  mf : Word w
deriving DecidableEq, Repr, Inhabited

end Sys2Proof
end

