-- ==== Sys2Proof/Config.lean ====
section
/-! DEFINITION. What a build of the core fixes (spec/00_scope.md R5): the field width `N`, the word width `W`, the number of
registers; and the values the spec leaves open: the `N = 32` divide `hpdiv32` (spec/45_fx_operators.md R156) and the value
fields of a response whose status is not OK (spec/30_encoding.md R52). -/

namespace Sys2Proof

/-- The two values of `N` the spec describes: 16 by default, 32 in the wide variant (R5; assumption 15). -/
inductive Variant where
  | n16
  | n32
deriving DecidableEq, Repr

/-- `N`, the number of bits of the integer field and of the fractional field (R5). -/
def Variant.N : Variant → Nat
  | .n16 => 16
  | .n32 => 32

/-- The static parameters of one core (R5): `N` by the variant, and any `W` with `W >= 4N`. -/
structure Build where
  variant : Variant
  W : Nat
  wide : 4 * variant.N ≤ W
deriving DecidableEq, Repr

/-- `N` of a build. -/
abbrev Build.N (b : Build) : Nat := b.variant.N

/-- The default build: `N = 16`, `W = 64` (R5). -/
def Build.default16 : Build := ⟨.n16, 64, by decide⟩

/-- The wide build with the default word width: `N = 32`, `W = 128` (R5). -/
def Build.default32 : Build := ⟨.n32, 128, by decide⟩

/-- `NF`, the number of fixed-point registers (R5, R22). -/
abbrev NF : Nat := 16

/-- `hpdiv32`, the open parameter that gives what FX.DIV stores at `N = 32` (R156): a total function of the receiver's and
the right operand's four fields, and of nothing else. Read at `n = 32` only. Assumption 4. -/
opaque Config.hpdiv32 : (n w : Nat) → FxVal n w → FxVal n w → FxVal n w

/-- Free value: the `result` wires of a response whose status is not OK, for the `k`-th such response (R52). Assumption 5. -/
opaque Config.freeResult : (w k : Nat) → Word w

/-- Free value: the `result2` wires of a response whose status is not OK (R52). Assumption 5. -/
opaque Config.freeResult2 : (w k : Nat) → Word w

/-- Free value: the `rsign` wire of a response whose status is not OK (R52). Assumption 5. -/
opaque Config.freeRsign : (k : Nat) → Bool

end Sys2Proof
end

