-- ==== Sys2Proof/Syntax.lean ====
section
/-! DEFINITION. The 25 commands of the command set BWA-1 (spec/30_encoding.md R56), one constructor per row of
spec/opcode_table.json, with the fields of the command word their format uses (R53, R54). The operand words `A` and `B` ride
on ports of their own (R51) and stand in `State`. -/

namespace Sys2Proof

/-- A register index: 4 bits, all sixteen values legal (R59). -/
abbrev Reg := Fin NF

/-- A command, by its mnemonic. -/
inductive Instr where
  /-- `ADD a, b` (R71). -/
  | add
  /-- `SUB a, b` (R72). -/
  | sub
  /-- `MUL a, b` (R91). -/
  | mul
  /-- `DIV a, b` (R103). -/
  | div
  /-- `MOD a, b` (R105). -/
  | mod
  /-- `GCD a, b` (R117). -/
  | gcd
  /-- `POW a, b` (R92). -/
  | pow
  /-- `NEG a` (R74). -/
  | neg
  /-- `INC a` (R73). -/
  | inc
  /-- `DEC a` (R77). -/
  | dec
  /-- `FX.ENC fd, decimal` (R126): `sg` is the sign of the decimal operand. -/
  | fxEnc (fd : Reg) (sg : Bool)
  /-- `FX.COPY fd, fs` (R130). -/
  | fxCopy (fd fs : Reg)
  /-- `FX.GETREP fs` (R132). -/
  | fxGetrep (fs : Reg)
  /-- `FX.SETREP fd, v` (R135). -/
  | fxSetrep (fd : Reg)
  /-- `FX.GETFLD fs` (R136). -/
  | fxGetfld (fs : Reg)
  /-- `FX.STR fs` (R137). -/
  | fxStr (fs : Reg)
  /-- `FX.GETMAG fs` (R138). -/
  | fxGetmag (fs : Reg)
  /-- `FX.ADD fd, fs` (R146). -/
  | fxAdd (fd fs : Reg)
  /-- `FX.SUB fd, fs` (R147). -/
  | fxSub (fd fs : Reg)
  /-- `FX.MUL fd, fs` (R150). -/
  | fxMul (fd fs : Reg)
  /-- `FX.DIV fd, fs` (R151, R156). -/
  | fxDiv (fd fs : Reg)
  /-- `FX.AND fd, fs` (R148). -/
  | fxAnd (fd fs : Reg)
  /-- `FX.XOR fd, fs` (R149). -/
  | fxXor (fd fs : Reg)
  /-- `FX.SHL fd, sh` (R152). -/
  | fxShl (fd : Reg) (sh : BitVec 8)
  /-- `FX.SHR fd, sh` (R153). -/
  | fxShr (fd : Reg) (sh : BitVec 8)
deriving DecidableEq, Repr

end Sys2Proof
end

