-- ==== Sys2Proof/Decode.lean ====
section
/-! DEFINITION. The command word: its fields (spec/30_encoding.md R53), the seven formats (R54), the opcode map (R56), the
reserved encodings (R57, R58), the decoder and, after it, the encoder. -/

namespace Sys2Proof

/-- The fields of a command word (R53). -/
structure Fields where
  opc : BitVec 8
  fd : BitVec 4
  fs : BitVec 4
  sh : BitVec 8
  sg : Bool
  zero : BitVec 7
deriving DecidableEq, Repr

/-- Cutting a command word into its fields (R53). -/
def fieldsOf (c : BitVec 32) : Fields where
  opc := c.extractLsb' 0 8
  fd := c.extractLsb' 8 4
  fs := c.extractLsb' 12 4
  sh := c.extractLsb' 16 8
  sg := c.getLsbD 24
  zero := c.extractLsb' 25 7

/-- The seven command formats (R54). -/
inductive Format where
  | k2
  | k1
  | fe
  | fr
  | f1
  | fs
  | fv
deriving DecidableEq, Repr

/-- The mask of a format: the bits a word of the format does not leave free (R54). -/
def Format.mask : Format → BitVec 32
  | .k2 | .k1 => 0xFFFFFFFF#32
  | .fe => 0xFEFFF0FF#32
  | .fr => 0xFFFF00FF#32
  | .f1 => 0xFFFF0FFF#32
  | .fs => 0xFF00F0FF#32
  | .fv => 0xFFFFF0FF#32

/-- The reserved field and the fields the format does not use are all zero (R54, R58). -/
def Format.unusedZero (t : Format) (f : Fields) : Bool :=
  f.zero == 0#7 &&
    match t with
    | .k2 | .k1 => f.fd == 0#4 && f.fs == 0#4 && f.sh == 0#8 && !f.sg
    | .fe => f.fs == 0#4 && f.sh == 0#8
    | .fr => f.sh == 0#8 && !f.sg
    | .f1 => f.fd == 0#4 && f.sh == 0#8 && !f.sg
    | .fs => f.fs == 0#4 && !f.sg
    | .fv => f.fs == 0#4 && f.sh == 0#8 && !f.sg

/-- A register field as a register index, used as is (R55). -/
def regOf (x : BitVec 4) : Reg := ⟨x.toNat, x.isLt⟩

/-- The opcode map (R56): the format and the command of each opcode, nothing for a reserved one (R57). -/
def rowOf (f : Fields) : Option (Format × Instr) :=
  match f.opc.toNat with
  | 0x01 => some (.k2, .add)
  | 0x02 => some (.k2, .sub)
  | 0x03 => some (.k2, .mul)
  | 0x04 => some (.k2, .div)
  | 0x05 => some (.k2, .mod)
  | 0x06 => some (.k2, .gcd)
  | 0x07 => some (.k2, .pow)
  | 0x08 => some (.k1, .neg)
  | 0x09 => some (.k1, .inc)
  | 0x0A => some (.k1, .dec)
  | 0x10 => some (.fe, .fxEnc (regOf f.fd) f.sg)
  | 0x11 => some (.fr, .fxCopy (regOf f.fd) (regOf f.fs))
  | 0x12 => some (.f1, .fxGetrep (regOf f.fs))
  | 0x13 => some (.fv, .fxSetrep (regOf f.fd))
  | 0x14 => some (.f1, .fxGetfld (regOf f.fs))
  | 0x15 => some (.f1, .fxStr (regOf f.fs))
  | 0x16 => some (.f1, .fxGetmag (regOf f.fs))
  | 0x20 => some (.fr, .fxAdd (regOf f.fd) (regOf f.fs))
  | 0x21 => some (.fr, .fxSub (regOf f.fd) (regOf f.fs))
  | 0x22 => some (.fr, .fxMul (regOf f.fd) (regOf f.fs))
  | 0x23 => some (.fr, .fxDiv (regOf f.fd) (regOf f.fs))
  | 0x24 => some (.fr, .fxAnd (regOf f.fd) (regOf f.fs))
  | 0x25 => some (.fr, .fxXor (regOf f.fd) (regOf f.fs))
  | 0x26 => some (.fs, .fxShl (regOf f.fd) f.sh)
  | 0x27 => some (.fs, .fxShr (regOf f.fd) f.sh)
  | _ => none

/-- Why a command word spells no command (R57, R58). -/
inductive DecodeError where
  /-- The opcode is not in the opcode map (R57). -/
  | reservedOpcode (opc : BitVec 8)
  /-- A bit of the reserved field, or of a field the format does not use, is not zero (R58). -/
  | unusedField (format : Format)
deriving DecidableEq, Repr

/-- The decoder, with the two checks in the order of R171: the opcode first, then the unused fields. -/
def decode (c : BitVec 32) : Except DecodeError Instr :=
  match rowOf (fieldsOf c) with
  | none => .error (.reservedOpcode (fieldsOf c).opc)
  | some (t, i) => if t.unusedZero (fieldsOf c) then .ok i else .error (.unusedField t)

/-- The decoder on a word numbered as spec/opcode_table.json numbers it; bits from `nbits` on read as 0. -/
def decodeTableWord (nbits w : Nat) : Option Instr :=
  match decode (BitVec.ofNat 32 (w % 2 ^ nbits)) with
  | .ok i => some i
  | .error _ => none

/-- A command word put together from its fields, the reserved field zero (R53). -/
def wordOf (opc : BitVec 8) (fd fs : BitVec 4) (sh : BitVec 8) (sg : Bool) : BitVec 32 :=
  0#7 ++ BitVec.ofBool sg ++ sh ++ fs ++ fd ++ opc

/-- A register index as a 4-bit field. -/
def regBits (r : Reg) : BitVec 4 := BitVec.ofNat 4 r.val

/-- The format of each command (R54, R56). -/
def Instr.format : Instr → Format
  | .add | .sub | .mul | .div | .mod | .gcd | .pow => .k2
  | .neg | .inc | .dec => .k1
  | .fxEnc _ _ => .fe
  | .fxCopy _ _ | .fxAdd _ _ | .fxSub _ _ | .fxMul _ _ | .fxDiv _ _ | .fxAnd _ _ | .fxXor _ _ => .fr
  | .fxGetrep _ | .fxGetfld _ | .fxStr _ | .fxGetmag _ => .f1
  | .fxShl _ _ | .fxShr _ _ => .fs
  | .fxSetrep _ => .fv

/-- The opcode of each command, the `match` value of its row (R54, R56). -/
def Instr.opcode : Instr → BitVec 8
  | .add => 0x01#8
  | .sub => 0x02#8
  | .mul => 0x03#8
  | .div => 0x04#8
  | .mod => 0x05#8
  | .gcd => 0x06#8
  | .pow => 0x07#8
  | .neg => 0x08#8
  | .inc => 0x09#8
  | .dec => 0x0A#8
  | .fxEnc _ _ => 0x10#8
  | .fxCopy _ _ => 0x11#8
  | .fxGetrep _ => 0x12#8
  | .fxSetrep _ => 0x13#8
  | .fxGetfld _ => 0x14#8
  | .fxStr _ => 0x15#8
  | .fxGetmag _ => 0x16#8
  | .fxAdd _ _ => 0x20#8
  | .fxSub _ _ => 0x21#8
  | .fxMul _ _ => 0x22#8
  | .fxDiv _ _ => 0x23#8
  | .fxAnd _ _ => 0x24#8
  | .fxXor _ _ => 0x25#8
  | .fxShl _ _ => 0x26#8
  | .fxShr _ _ => 0x27#8

/-- The encoder: the command word of a command (R53, R54, R56). -/
def encode (i : Instr) : BitVec 32 :=
  match i with
  | .add | .sub | .mul | .div | .mod | .gcd | .pow | .neg | .inc | .dec => wordOf i.opcode 0#4 0#4 0#8 false
  | .fxEnc fd sg => wordOf i.opcode (regBits fd) 0#4 0#8 sg
  | .fxCopy fd fs | .fxAdd fd fs | .fxSub fd fs | .fxMul fd fs | .fxDiv fd fs | .fxAnd fd fs | .fxXor fd fs =>
    wordOf i.opcode (regBits fd) (regBits fs) 0#8 false
  | .fxGetrep fs | .fxGetfld fs | .fxStr fs | .fxGetmag fs => wordOf i.opcode 0#4 (regBits fs) 0#8 false
  | .fxShl fd sh | .fxShr fd sh => wordOf i.opcode (regBits fd) 0#4 sh false
  | .fxSetrep fd => wordOf i.opcode (regBits fd) 0#4 0#8 false

end Sys2Proof
end

