-- ==== Sys2Proof/Machine/State.lean ====
section
/-! DEFINITION. The machine's state as plain data (spec/10_state.md R20 to R33), the host's side of the command port
(spec/30_encoding.md R50 to R52, R64), the reasons a step can stop, and the state after reset
(spec/70_reset_and_hazards.md R180). -/

namespace Sys2Proof.Machine

/-- The status of a response (R168). Code 3 is reserved and never produced, so it has no constructor. -/
inductive Status where
  | ok
  | divideByZero
  | refused
deriving DecidableEq, Repr

/-- One command as the host presents it: the command word and the two operand words, together (R50). -/
structure Command (w : Nat) where
  cmd : BitVec 32
  a : Word w
  b : Word w
deriving DecidableEq, Repr

/-- One response (R52). -/
structure Response (w : Nat) where
  status : Status
  result : Word w
  result2 : Word w
  rsign : Bool
deriving DecidableEq, Repr

/-- What the host does at the ports between two steps (R48, R183). -/
inductive HostInput (w : Nat) where
  /-- A command is presented and accepted (R51). -/
  | command (c : Command w)
  /-- `rst` is asserted (R180); a command in flight at that moment is dropped (the argument says which). -/
  | reset (inFlight : Option (Command w))
  /-- The host breaks the handshake: it changes a command while it is being accepted, or drives `cmd_valid` during reset
  (R183). -/
  | handshakeBreach
deriving DecidableEq, Repr

/-- Why a step faults. -/
inductive Fault where
  /-- Raised by `step` alone, when the host breaks the handshake: 'a model has no move for it' (R183; assumption 8). Safe for
  claims about hosts that keep the handshake; the spec itself excludes the others. -/
  | handshakeBroken
deriving DecidableEq, Repr

/-- Why a step is refused. No instruction of this model is. -/
inductive Refusal where
  /-- An instruction that has no meaning yet; raised by no arm of `exec`. Safe. -/
  | notModelled (mnemonic : String)
deriving DecidableEq, Repr

/-- The whole state. `build` holds the static parameters, which no step changes (R5; assumption 1); `f` and `v` are the
registers `F[0..15]` and their valid bits `V[0..15]` (R22, R27); `opA` and `opB` are the operand words of the command being
executed, sampled at acceptance (R9, R51); `inputs` is what the host will do at the ports, in issue order (R45, R48);
`responses` are the responses since reset, oldest first (R191; assumption 10); `draws` is the model's own counter of free values
(assumption 5). -/
structure State where
  build : Build
  f : Vector (FxVal build.N build.W) NF
  v : Vector Bool NF
  opA : Word build.W
  opB : Word build.W
  inputs : List (HostInput build.W)
  responses : List (Response build.W)
  draws : Nat
deriving DecidableEq, Repr

/-- The state `rst` leaves on build `b`, with the host's coming inputs: every valid bit 0, idle, nothing pending (R180,
R33). The register fields and operand words, which the spec leaves unspecified, are 0 (DESIGN CHOICE, assumption 3). -/
def State.resetWith (b : Build) (inputs : List (HostInput b.W)) (draws : Nat) : State where
  build := b
  f := Vector.replicate NF ⟨false, 0, 0, 0⟩
  v := Vector.replicate NF false
  opA := 0
  opB := 0
  inputs := inputs
  responses := []
  draws := draws

/-- The reset state of a build, the host not yet presenting anything. -/
def State.resetOf (b : Build) : State := State.resetWith b [] 0

/-- The machine right after reset: the default build (R5, R180). -/
def State.reset : State := State.resetOf Build.default16

end Sys2Proof.Machine
end

