-- ==== Sys2Proof/Machine/Flags.lean ====
section
/-! DEFINITION. What behaves like a flag in this core (spec/10_state.md R30): the sign field's two rules
(spec/44_fx_codec.md R126, R134) and the status codes of a response (spec/60_exceptions.md R168). -/

namespace Sys2Proof.Machine.Flags

/-- The sign-merge rule (R134): the old flag OR the sign of the incoming value. -/
def signMerge (old incomingNegative : Bool) : Bool := old || incomingNegative

/-- The sign FX.ENC stores (R126): minus zero is not negative. -/
def encodedSign {w : Nat} (sg : Bool) (a b : Word w) : Bool := sg && (a != 0#w || b != 0#w)

/-- The 2-bit code of a status (R168). -/
def statusCode : Status → BitVec 2
  | .ok => 0#2
  | .divideByZero => 1#2
  | .refused => 2#2

end Sys2Proof.Machine.Flags
end

