-- ==== Sys2Proof/Machine/Kernel.lean ====
section
/-! DEFINITION. The kernel: the bitwise adder, subtractor, multiplier, power, divider and GCD datapaths as pure functions on
words (spec/40_addsub.md, spec/41_multiply_power.md, spec/42_divide_modulo.md, spec/43_gcd.md; shifts of spec/00_scope.md
R8). Each loop carries a fuel that is the spec's own bound on its steps (spec/70_reset_and_hazards.md R186; assumption 12). -/

namespace Sys2Proof.Machine.Kernel

/-- `shl_W(x, s)` (R8). -/
def shl {w : Nat} (x : Word w) (s : Nat) : Word w := x <<< s

/-- `lsr_W(x, s)` (R8). -/
def lsr {w : Nat} (x : Word w) (s : Nat) : Word w := x >>> s

/-- `asr_W(x, s)` (R8). -/
def asr {w : Nat} (x : Word w) (s : Nat) : Word w := x.sshiftRight s

/-- The carry loop (R70): at most `fuel` carry steps. -/
def carryLoop {w : Nat} : (fuel : Nat) → (x y : Word w) → Word w
  | 0, x, _ => x
  | k + 1, x, y => if y = 0#w then x else carryLoop k (x ^^^ y) (shl (x &&& y) 1)

/-- The adder (R71). The optional fast paths of R75 change no result and are left out (assumption 16). -/
def add {w : Nat} (a b : Word w) : Word w := carryLoop w a b

/-- The borrow loop (R72). -/
def borrowLoop {w : Nat} : (fuel : Nat) → (x y : Word w) → Word w
  | 0, x, _ => x
  | k + 1, x, y => if y = 0#w then x else borrowLoop k (x ^^^ y) (shl (~~~x &&& y) 1)

/-- The subtractor (R72). -/
def sub {w : Nat} (a b : Word w) : Word w := borrowLoop w a b

/-- Negation, complement and add one (R74). -/
def neg {w : Nat} (a : Word w) : Word w := add (~~~a) 1#w

/-- Increment (R73). -/
def inc {w : Nat} (a : Word w) : Word w := add a 1#w

/-- Decrement (R77). -/
def dec {w : Nat} (a : Word w) : Word w := sub a 1#w

/-- `mag_W(x)`: the magnitude, to be read unsigned (R8, R78). -/
def mag {w : Nat} (x : Word w) : Word w := if x.msb then neg x else x

/-- The shift-and-add loop (R90): accumulator, multiplicand, multiplier. -/
def mulLoop {w : Nat} : (fuel : Nat) → (acc x y : Word w) → Word w
  | 0, acc, _, _ => acc
  | k + 1, acc, x, y =>
    if y = 0#w then acc else mulLoop k (if y.getLsbD 0 then add acc x else acc) (shl x 1) (lsr y 1)

/-- The multiplier (R90, R91). -/
def mul {w : Nat} (a b : Word w) : Word w :=
  let acc := mulLoop w 0#w (mag a) (mag b)
  if a.msb ^^ b.msb then neg acc else acc

/-- The power loop as the spec writes it (R92): one multiplication for each unit of the exponent. -/
def powLoop {w : Nat} (a : Word w) : (e : Nat) → (acc : Word w) → Word w
  | 0, acc => acc
  | e + 1, acc => powLoop a e (mul acc a)

/-- The result of the power loop computed directly (R93: 'a model computes it directly'), by repeated squaring
(assumption 11): `acc * a ^ e` modulo `2^w`, for `e < 2 ^ fuel`. -/
def powSquare {w : Nat} : (fuel : Nat) → (a : Word w) → (e : Nat) → (acc : Word w) → Word w
  | 0, _, _, acc => acc
  | k + 1, a, e, acc => if e = 0 then acc else powSquare k (a * a) (e / 2) (if e % 2 = 1 then acc * a else acc)

/-- The power command's value, its tests in the order of R92. -/
def power {w : Nat} (a b : Word w) : Word w :=
  if b = 0#w ∨ a = 1#w then 1#w
  else if b.msb then 0#w
  else powSquare w a b.toNat 1#w

/-- `bitlen(m)` (R8). -/
def bitlen (m : Nat) : Nat := if m = 0 then 0 else m.log2 + 1

/-- The restoring loop (R101): aligned divisor, steps to go, running remainder, quotient. The remainder is an exact integer:
its datapath is `2W+1` bits wide and does not wrap (R108; assumption 13). -/
def restoringLoop (d : Int) : (steps : Nat) → (r : Int) → (q : Nat) → Nat × Int
  | 0, r, q => (q, r)
  | k + 1, r, q =>
    let r' := 2 * r - d
    if 0 ≤ r' then restoringLoop d k r' (2 * q + 1) else restoringLoop d k (r' + d) (2 * q)

/-- `udiv(m, d)`: the quotient and the final running remainder (R101). -/
def udiv (m d : Nat) : Nat × Int := restoringLoop (d * 2 ^ bitlen m) (bitlen m) m 0

/-- The divisibility probe (R102): the final remainder is zero. -/
def divisible {w : Nat} (a b : Word w) : Bool := decide ((udiv (mag a).toNat (mag b).toNat).2 = 0)

/-- The sign stage (R104). -/
def signStage {w : Nat} (a b : Word w) : Word w :=
  let q := BitVec.ofNat w (udiv (mag a).toNat (mag b).toNat).1
  if a.msb = b.msb then q else if divisible a b then neg q else ~~~q

/-- The divider (R100, R103); `none` is the DivideByZero condition. -/
def divide {w : Nat} (a b : Word w) : Option (Word w) :=
  if b = 0#w then none else if a = 0#w then some 0#w else some (signStage a b)

/-- The modulo unit (R105); `none` is the DivideByZero condition. -/
def modulo {w : Nat} (a b : Word w) : Option (Word w) := (divide a b).map fun q => sub a (mul q b)

/-- The GCD recursion on magnitudes, the cases in the order of R116. Halving is `lsr` by 1 and doubling `shl` by 1, as R116
allows and asks for the magnitude of `MIN` (assumption 14). -/
def gcdSteps {w : Nat} : (fuel : Nat) → (x y : Word w) → Word w
  | 0, _, y => y
  | k + 1, x, y =>
    if x = 0#w then y
    else if y = 0#w then x
    else if x = y then x
    else if x = 1#w ∨ y = 1#w then 1#w
    else if x.getLsbD 0 = false ∧ y.getLsbD 0 = false then shl (gcdSteps k (lsr x 1) (lsr y 1)) 1
    else if x.getLsbD 0 = false then gcdSteps k (lsr x 1) y
    else if y.getLsbD 0 = false then gcdSteps k x (lsr y 1)
    else if y < x then gcdSteps k (lsr (sub x y) 1) y
    else gcdSteps k (lsr (sub y x) 1) x

/-- The GCD engine (R115, R117): magnitudes at entry, depth at most `2W` (R116). -/
def gcd {w : Nat} (a b : Word w) : Word w := gcdSteps (2 * w) (mag a) (mag b)

end Sys2Proof.Machine.Kernel
end

