-- ==== Sys2Proof/Machine/FxFormat.lean ====
section
/-! DEFINITION. The fixed-point format and its codec as pure functions (spec/44_fx_codec.md R125 to R137): fields, doubling
loop, encoder, signed view, setter, decimal digits. -/

namespace Sys2Proof.Machine.Fx

/-- The integer field `packed[2N-1:N]` (R24). -/
def intField {n : Nat} (p : BitVec (2 * n)) : BitVec n := p.extractLsb' n n

/-- The fractional field `packed[N-1:0]` (R24). -/
def fracField {n : Nat} (p : BitVec (2 * n)) : BitVec n := p.extractLsb' 0 n

/-- The packed integer of an integer field (high) and a fractional field (low) (R24, R126). -/
def pack {n : Nat} (i f : BitVec n) : BitVec (2 * n) := (i ++ f).cast (by omega)

/-- The doubling loop (R128) with threshold `t`: steps to go, scaled fraction, bits so far. When the fraction is exhausted the
remaining bits are zero padding. -/
def doublingLoop (t : Nat) : (steps : Nat) → (r f : Nat) → Nat
  | 0, _, f => f
  | k + 1, r, f =>
    if r = 0 then f * 2 ^ (k + 1)
    else if t ≤ 2 * r then doublingLoop t k (2 * r - t) (2 * f + 1)
    else doublingLoop t k (2 * r) (2 * f)

/-- `frac_bits(FD)` (R128). -/
def fracBits (n fd : Nat) : Nat := doublingLoop (10 ^ n) n fd 0

/-- The decimal operand is legal (R127): `IP < 2^N` and `FD < 10^N`. -/
def decimalLegal {w : Nat} (n : Nat) (a b : Word w) : Bool := decide (a.toNat < 2 ^ n ∧ b.toNat < 10 ^ n)

/-- The value FX.ENC stores for a legal decimal operand (R126). -/
def encodeDecimal {w : Nat} (n : Nat) (sg : Bool) (a b : Word w) : FxVal n w where
  sign := Flags.encodedSign sg a b
  packed := pack (a.setWidth n) (BitVec.ofNat n (fracBits n b.toNat))
  mi := a
  mf := b

/-- `rep`, the signed view `representation_int` (R131). -/
def rep {n w : Nat} (x : FxVal n w) : Word w := if x.sign then Kernel.neg (zext w x.packed) else zext w x.packed

/-- The fractional digits of a packed integer, `frac * 5^N` (R133, R137). -/
def fracDigits {n : Nat} (w : Nat) (p : BitVec (2 * n)) : Word w :=
  Kernel.mul (zext w (fracField p)) (BitVec.ofNat w (5 ^ n))

/-- The value the setter stores for the word `v` over the old value `old` (R133): sign merged (R134), the low `2N` bits of
the magnitude, the decimal magnitude re-derived. -/
def assign {n w : Nat} (old : FxVal n w) (v : Word w) : FxVal n w :=
  let p : BitVec (2 * n) := (Kernel.mag v).setWidth (2 * n)
  { sign := Flags.signMerge old.sign v.msb
    packed := p
    mi := zext w (intField p)
    mf := fracDigits w p }

end Sys2Proof.Machine.Fx
end

