-- ==== Sys2Proof/WellFormed.lean ====
section
/-! DEFINITION. Which commands are well formed on a build (spec/30_encoding.md R59). Register numbers and field widths are
right by type; what is left to check is the shift amount. -/

namespace Sys2Proof

/-- A shift amount is legal when `sh < W` (R59). -/
def shiftLegal (b : Build) (sh : BitVec 8) : Bool := decide (sh.toNat < b.W)

/-- A command is well formed on build `b`. An ill-formed one is still decoded, and answered with status REFUSED (R59). -/
def Instr.wellFormed (b : Build) : Instr → Bool
  | .fxShl _ sh => shiftLegal b sh
  | .fxShr _ sh => shiftLegal b sh
  | .add | .sub | .mul | .div | .mod | .gcd | .pow | .neg | .inc | .dec => true
  | .fxEnc _ _ | .fxCopy _ _ | .fxGetrep _ | .fxSetrep _ | .fxGetfld _ | .fxStr _ | .fxGetmag _ => true
  | .fxAdd _ _ | .fxSub _ _ | .fxMul _ _ | .fxDiv _ _ | .fxAnd _ _ | .fxXor _ _ => true

end Sys2Proof
end

