-- ==== Sys2Proof/Machine/Operands.lean ====
section
/-! DEFINITION. How each operand of a command is formed (spec/30_encoding.md R55): operand words, registers by their index,
the signed view of a register. -/

namespace Sys2Proof.Machine

/-- `F[i]` (R22). -/
def State.freg (s : State) (i : Reg) : FxVal s.build.N s.build.W := s.f.get i

/-- `V[i]` (R27). -/
def State.valid (s : State) (i : Reg) : Bool := s.v.get i

/-- `rep(F[i])`, the signed view of register `i` (R131). -/
def State.view (s : State) (i : Reg) : Word s.build.W := Fx.rep (s.freg i)

/-- The integer digits of register `i` as a word (R137). -/
def State.intDigits (s : State) (i : Reg) : Word s.build.W := zext s.build.W (Fx.intField (s.freg i).packed)

/-- The fractional digits of register `i` as a word (R137). -/
def State.fracDigits (s : State) (i : Reg) : Word s.build.W := Fx.fracDigits s.build.W (s.freg i).packed

/-- The decimal operand on the ports is legal (R127). -/
def State.decimalLegal (s : State) : Bool := Fx.decimalLegal s.build.N s.opA s.opB

/-- The shift amount is legal, `sh < W` (R59). -/
def State.shiftLegal (s : State) (sh : BitVec 8) : Bool := Sys2Proof.shiftLegal s.build sh

end Sys2Proof.Machine
end

