-- ==== Sys2Proof/Machine/Ops.lean ====
section
/-! DEFINITION. The named operations over the state: writing a register, the setter, answering a command, the two failing
outcomes, accepting a command, reset. -/

namespace Sys2Proof.Machine

/-- A response with status OK; a value field a command's rule does not mention is 0 (R52). -/
def okResponse {w : Nat} (result result2 : Word w) (rsign : Bool) : Response w := ⟨.ok, result, result2, rsign⟩

/-- The response of a command is presented to the host (R52, R64). -/
def State.respond (s : State) (r : Response s.build.W) : State := { s with responses := s.responses ++ [r] }

/-- The command ends OK with these value fields and writes no register. -/
def State.answer (s : State) (result : Word s.build.W) (result2 : Word s.build.W := 0) (rsign : Bool := false) : State :=
  s.respond (okResponse result result2 rsign)

/-- The command ends with `F[d] <- x`, all four fields in one indivisible write, `V[d] <- 1` (R9, R43), and the response `r`. -/
def State.store (s : State) (d : Reg) (x : FxVal s.build.N s.build.W) (r : Response s.build.W) : State :=
  { s with f := s.f.set d.val x d.isLt, v := s.v.set d.val true d.isLt, responses := s.responses ++ [r] }

/-- The response of a command that returns its receiver, holding `x` after the update (R62, R145): its signed view, its sign. -/
def receiverResponse {n w : Nat} (x : FxVal n w) : Response w := okResponse (Fx.rep x) 0 x.sign

/-- The receiver `d` takes the value `x` and is returned (R126, R145). -/
def State.storeReceiver (s : State) (d : Reg) (x : FxVal s.build.N s.build.W) : State := s.store d x (receiverResponse x)

/-- `set_rep(d, v)`: the setter (R133), and the receiver is returned (R145). -/
def State.assignReceiver (s : State) (d : Reg) (v : Word s.build.W) : State :=
  s.storeReceiver d (Fx.assign (s.freg d) v)

/-- The one way a command fails (R165, R172; assumption 6): a response with its status, no other architectural change. The three
value fields carry no meaning (R52) and are free values, numbered by `draws` (assumption 5). -/
def State.fail (s : State) (st : Status) : State :=
  { s with
    responses := s.responses ++
      [⟨st, Config.freeResult s.build.W s.draws, Config.freeResult2 s.build.W s.draws, Config.freeRsign s.draws⟩]
    draws := s.draws + 1 }

/-- `raise DivideByZero` (R9, R166). There is no trap entry besides (R172), and so no return from one (R173). -/
def State.raiseDivideByZero (s : State) : State := s.fail .divideByZero

/-- Why a command is refused (R167). The core does not report it (R168). -/
inductive RefuseReason where
  /-- The command word spells no command (R57, R58). -/
  | malformed (why : DecodeError)
  /-- `sh >= W` (R59). -/
  | shiftAmount
  /-- FX.ENC's decimal operand is out of range (R126). -/
  | operandRange
  /-- A register the command reads has `V = 0` (R27). -/
  | unwrittenRegister
deriving DecidableEq, Repr

/-- `refuse(reason)` (R9, R167): status REFUSED, nothing else; the reason is not reported. -/
def State.refuse (s : State) (_reason : RefuseReason) : State := s.fail .refused

/-- A kernel command's ending (R20): the value on `result`, or DivideByZero; no register is touched. -/
def answerKernel (s : State) (r : Option (Word s.build.W)) : Host.Outcome State Fault Refusal :=
  match r with
  | none => .next s.raiseDivideByZero
  | some x => .next (s.answer x)

/-- `fx_binary(fd, fs, f)` (R145): both registers checked, both views read, then one write. `f` answers `none` for
DivideByZero. -/
def fxBinary (fd fs : Reg) (s : State) (f : Word s.build.W → Word s.build.W → Option (Word s.build.W)) :
    Host.Outcome State Fault Refusal :=
  if s.valid fd = false then .next (s.refuse .unwrittenRegister)
  else if s.valid fs = false then .next (s.refuse .unwrittenRegister)
  else
    match f (s.view fd) (s.view fs) with
    | none => .next s.raiseDivideByZero
    | some v => .next (s.assignReceiver fd v)

/-- The shape of the two shifts (R145, R152, R153): the amount is checked before the valid bit (R171). -/
def fxShift (fd : Reg) (sh : BitVec 8) (s : State) (f : Word s.build.W → Nat → Word s.build.W) :
    Host.Outcome State Fault Refusal :=
  if s.shiftLegal sh = false then .next (s.refuse .shiftAmount)
  else if s.valid fd = false then .next (s.refuse .unwrittenRegister)
  else .next (s.assignReceiver fd (f (s.view fd) sh.toNat))

/-- The shape of the commands that read one register out (R43, R132, R136 to R138). -/
def fxRead (fs : Reg) (s : State) (r : Response s.build.W) : Host.Outcome State Fault Refusal :=
  if s.valid fs = false then .next (s.refuse .unwrittenRegister) else .next (s.respond r)

/-- The core accepts a command (R51): the operand words are sampled, the input is consumed. -/
def State.accept (s : State) (c : Command s.build.W) (rest : List (HostInput s.build.W)) : State :=
  { s with opA := c.a, opB := c.b, inputs := rest }

/-- `rst` (R180): the reset state of the same build (R181); the command in flight, if any, leaves no response and no write.
The host's later inputs and the free values drawn so far are kept (assumption 9). -/
def State.afterReset (s : State) (rest : List (HostInput s.build.W)) : State := State.resetWith s.build rest s.draws

/-- The index of the next command in the host's sequence since reset, which stands for a pc (R21). -/
def State.commandIndex (s : State) : Nat := s.responses.length

end Sys2Proof.Machine
end

