-- ==== Sys2Proof/Machine/AddSub.lean ====
section
/-! DEFINITION. Meanings of the adder/subtractor family: ADD, SUB, NEG, INC, DEC (spec/40_addsub.md R70 to R78). -/

namespace Sys2Proof.Machine

/-- ADD (R71). -/
def execAdd (s : State) : Host.Outcome State Fault Refusal := answerKernel s (some (Kernel.add s.opA s.opB))

/-- SUB (R72). -/
def execSub (s : State) : Host.Outcome State Fault Refusal := answerKernel s (some (Kernel.sub s.opA s.opB))

/-- NEG (R74); `B` is not read (R55). -/
def execNeg (s : State) : Host.Outcome State Fault Refusal := answerKernel s (some (Kernel.neg s.opA))

/-- INC (R73); `B` is not read (R55). -/
def execInc (s : State) : Host.Outcome State Fault Refusal := answerKernel s (some (Kernel.inc s.opA))

/-- DEC (R77); `B` is not read (R55). -/
def execDec (s : State) : Host.Outcome State Fault Refusal := answerKernel s (some (Kernel.dec s.opA))

end Sys2Proof.Machine
end

