-- ==== Sys2Proof/Machine/DivideModulo.lean ====
section
/-! DEFINITION. Meanings of the divider family: DIV, MOD (spec/42_divide_modulo.md R100 to R108). Both raise DivideByZero
exactly when `B` is 0, before anything else (R100, R105). -/

namespace Sys2Proof.Machine

/-- DIV (R103). -/
def execDiv (s : State) : Host.Outcome State Fault Refusal := answerKernel s (Kernel.divide s.opA s.opB)

/-- MOD (R105). -/
def execMod (s : State) : Host.Outcome State Fault Refusal := answerKernel s (Kernel.modulo s.opA s.opB)

end Sys2Proof.Machine
end

