-- ==== Sys2Proof/Machine/FxCodec.lean ====
section
/-! DEFINITION. Meanings of the fixed-point encoder/decoder: FX.ENC, FX.COPY, FX.GETREP, FX.SETREP, FX.GETFLD, FX.STR,
FX.GETMAG (spec/44_fx_codec.md R126 to R138). -/

namespace Sys2Proof.Machine

/-- FX.ENC (R126). The receiver need not be valid: no register is read. -/
def execFxEnc (fd : Reg) (sg : Bool) (s : State) : Host.Outcome State Fault Refusal :=
  if s.decimalLegal = false then .next (s.refuse .operandRange)
  else .next (s.storeReceiver fd (Fx.encodeDecimal s.build.N sg s.opA s.opB))

/-- FX.COPY (R130): all four fields; no response value field is driven. -/
def execFxCopy (fd fs : Reg) (s : State) : Host.Outcome State Fault Refusal :=
  if s.valid fs = false then .next (s.refuse .unwrittenRegister)
  else .next (s.store fd (s.freg fs) (okResponse 0 0 false))

/-- FX.GETREP (R132). -/
def execFxGetrep (fs : Reg) (s : State) : Host.Outcome State Fault Refusal :=
  fxRead fs s (okResponse (s.view fs) 0 (s.freg fs).sign)

/-- FX.SETREP (R135). -/
def execFxSetrep (fd : Reg) (s : State) : Host.Outcome State Fault Refusal :=
  if s.valid fd = false then .next (s.refuse .unwrittenRegister) else .next (s.assignReceiver fd s.opA)

/-- FX.GETFLD (R136). -/
def execFxGetfld (fs : Reg) (s : State) : Host.Outcome State Fault Refusal :=
  fxRead fs s (okResponse (zext s.build.W (s.freg fs).packed) 0 (s.freg fs).sign)

/-- FX.STR (R137): the three parts of the string as numbers, made from `packed`. -/
def execFxStr (fs : Reg) (s : State) : Host.Outcome State Fault Refusal :=
  fxRead fs s (okResponse (s.intDigits fs) (s.fracDigits fs) (s.freg fs).sign)

/-- FX.GETMAG (R138): the stored magnitude. -/
def execFxGetmag (fs : Reg) (s : State) : Host.Outcome State Fault Refusal :=
  fxRead fs s (okResponse (s.freg fs).mi (s.freg fs).mf false)

end Sys2Proof.Machine
end

