-- ==== Sys2Proof/Machine/FxOperators.lean ====
section
/-! DEFINITION. Meanings of the fixed-point operators: FX.ADD, FX.SUB, FX.AND, FX.XOR, FX.MUL, FX.DIV, FX.SHL, FX.SHR
(spec/45_fx_operators.md R145 to R158). -/

namespace Sys2Proof.Machine

/-- FX.ADD (R146). -/
def execFxAdd (fd fs : Reg) (s : State) : Host.Outcome State Fault Refusal :=
  fxBinary fd fs s fun a b => some (Kernel.add a b)

/-- FX.SUB (R147). -/
def execFxSub (fd fs : Reg) (s : State) : Host.Outcome State Fault Refusal :=
  fxBinary fd fs s fun a b => some (Kernel.sub a b)

/-- FX.AND (R148): bitwise on the signed views. -/
def execFxAnd (fd fs : Reg) (s : State) : Host.Outcome State Fault Refusal :=
  fxBinary fd fs s fun a b => some (a &&& b)

/-- FX.XOR (R149): bitwise on the signed views. -/
def execFxXor (fd fs : Reg) (s : State) : Host.Outcome State Fault Refusal :=
  fxBinary fd fs s fun a b => some (a ^^^ b)

/-- FX.MUL (R150): the `W`-bit product, then an arithmetic right shift by `N`. -/
def execFxMul (fd fs : Reg) (s : State) : Host.Outcome State Fault Refusal :=
  fxBinary fd fs s fun a b => some (Kernel.asr (Kernel.mul a b) s.build.N)

/-- FX.DIV's value at every `N` other than 32 (R151): the floor quotient, then a left shift by `N`. -/
def fxDivNarrow (fd fs : Reg) (s : State) : Host.Outcome State Fault Refusal :=
  fxBinary fd fs s fun a b => (Kernel.divide a b).map fun q => Kernel.shl q s.build.N

/-- FX.DIV at `N = 32` (R156): what is stored is the open parameter `hpdiv32`; the checks, DivideByZero and the response are
fixed. -/
def fxDivWide (fd fs : Reg) (s : State) : Host.Outcome State Fault Refusal :=
  if s.valid fd = false then .next (s.refuse .unwrittenRegister)
  else if s.valid fs = false then .next (s.refuse .unwrittenRegister)
  else if (s.freg fs).packed = 0 then .next s.raiseDivideByZero
  else
    .next (s.storeReceiver fd (Config.hpdiv32 s.build.N s.build.W (s.freg fd) (s.freg fs)))

/-- FX.DIV (R151, R156). -/
def execFxDiv (fd fs : Reg) (s : State) : Host.Outcome State Fault Refusal :=
  match s.build.variant with
  | .n16 => fxDivNarrow fd fs s
  | .n32 => fxDivWide fd fs s

/-- FX.SHL (R152): a left shift of the signed view, wrapping at `W`. -/
def execFxShl (fd : Reg) (sh : BitVec 8) (s : State) : Host.Outcome State Fault Refusal :=
  fxShift fd sh s fun a k => Kernel.shl a k

/-- FX.SHR (R153): an arithmetic right shift of the signed view. -/
def execFxShr (fd : Reg) (sh : BitVec 8) (s : State) : Host.Outcome State Fault Refusal :=
  fxShift fd sh s fun a k => Kernel.asr a k

end Sys2Proof.Machine
end

