-- ==== Sys2Proof/Machine/GcdEngine.lean ====
section
/-! DEFINITION. The meaning of GCD (spec/43_gcd.md R115 to R119). -/

namespace Sys2Proof.Machine

/-- GCD (R117); no error condition. -/
def execGcd (s : State) : Host.Outcome State Fault Refusal := answerKernel s (some (Kernel.gcd s.opA s.opB))

end Sys2Proof.Machine
end

