-- ==== Sys2Proof/Machine/MultiplyPower.lean ====
section
/-! DEFINITION. Meanings of the multiplier family: MUL, POW (spec/41_multiply_power.md R90 to R94). -/

namespace Sys2Proof.Machine

/-- MUL (R91). -/
def execMul (s : State) : Host.Outcome State Fault Refusal := answerKernel s (some (Kernel.mul s.opA s.opB))

/-- POW (R92); no error condition. -/
def execPow (s : State) : Host.Outcome State Fault Refusal := answerKernel s (some (Kernel.power s.opA s.opB))

end Sys2Proof.Machine
end

