-- ==== Sys2Proof/Machine/Dispatch.lean ====
section
/-! DEFINITION. One arm per command: the meaning of each constructor of `Instr`. -/

namespace Sys2Proof.Machine

/-- The meaning of an accepted command, its operand words in `opA` and `opB`. -/
def exec (i : Instr) (s : State) : Host.Outcome State Fault Refusal :=
  match i with
  | .add => Sys2Proof.Machine.execAdd s
  | .sub => Sys2Proof.Machine.execSub s
  | .mul => Sys2Proof.Machine.execMul s
  | .div => Sys2Proof.Machine.execDiv s
  | .mod => Sys2Proof.Machine.execMod s
  | .gcd => Sys2Proof.Machine.execGcd s
  | .pow => Sys2Proof.Machine.execPow s
  | .neg => Sys2Proof.Machine.execNeg s
  | .inc => Sys2Proof.Machine.execInc s
  | .dec => Sys2Proof.Machine.execDec s
  | .fxEnc fd sg => Sys2Proof.Machine.execFxEnc fd sg s
  | .fxCopy fd fs => Sys2Proof.Machine.execFxCopy fd fs s
  | .fxGetrep fs => Sys2Proof.Machine.execFxGetrep fs s
  | .fxSetrep fd => Sys2Proof.Machine.execFxSetrep fd s
  | .fxGetfld fs => Sys2Proof.Machine.execFxGetfld fs s
  | .fxStr fs => Sys2Proof.Machine.execFxStr fs s
  | .fxGetmag fs => Sys2Proof.Machine.execFxGetmag fs s
  | .fxAdd fd fs => Sys2Proof.Machine.execFxAdd fd fs s
  | .fxSub fd fs => Sys2Proof.Machine.execFxSub fd fs s
  | .fxMul fd fs => Sys2Proof.Machine.execFxMul fd fs s
  | .fxDiv fd fs => Sys2Proof.Machine.execFxDiv fd fs s
  | .fxAnd fd fs => Sys2Proof.Machine.execFxAnd fd fs s
  | .fxXor fd fs => Sys2Proof.Machine.execFxXor fd fs s
  | .fxShl fd sh => Sys2Proof.Machine.execFxShl fd sh s
  | .fxShr fd sh => Sys2Proof.Machine.execFxShr fd sh s

end Sys2Proof.Machine
end

