-- ==== Sys2Proof/Machine/Step.lean ====
section
/-! DEFINITION. One step: the host's next input is taken, and a command runs to its response as one atomic step
(spec/20_memory.md R45, R48; spec/30_encoding.md R64; assumption 7). -/

namespace Sys2Proof.Machine

/-- One step. With no input the core stays idle and keeps all its state (R175). -/
def step (s : State) : Host.Outcome State Fault Refusal :=
  match s.inputs with
  | [] => .next s
  | .handshakeBreach :: _ => .fault .handshakeBroken
  | .reset _ :: rest => .next (s.afterReset rest)
  | .command c :: rest =>
    match decode c.cmd with
    | .error e => .next ((s.accept c rest).refuse (.malformed e))
    | .ok i => exec i (s.accept c rest)

/-- A command whose bits are `w`, the command word first, then `A`, then `B`; bits from `nbits` on are 0. -/
def commandOfBits (W nbits w : Nat) : Command W :=
  let v := w % 2 ^ nbits
  ⟨BitVec.ofNat 32 v, BitVec.ofNat W (v / 2 ^ 32), BitVec.ofNat W (v / 2 ^ (32 + W))⟩

/-- The state in which the host's next input presents the command whose bits are `w` (assumption 2). -/
def State.withFetchWord (s : State) (nbits w : Nat) : State :=
  { s with inputs := .command (commandOfBits s.build.W nbits w) :: s.inputs }

end Sys2Proof.Machine
end

