-- ==== Sys2Proof/Machine/HostSide.lean ====
section
/-! DEFINITION. The host's own part, which the spec writes down beside the core: the assembler's decimal operand and
pseudo-instructions (spec/30_encoding.md R60, R61; spec/45_fx_operators.md R158) and the characters of the string conversion
(spec/44_fx_codec.md R137). No step depends on it (assumption 17). -/

namespace Sys2Proof.Machine.HostSide

/-- A decimal as written: a minus sign or not, the number before the point, the digits after it (R60). -/
structure Decimal where
  minus : Bool
  ip : Nat
  digits : List (Fin 10)
deriving DecidableEq, Repr

/-- The digits after the point as an integer of exactly `n` digits: cut to `n`, or padded with zeros on the right (R60). -/
def Decimal.scaled (n : Nat) (d : Decimal) : Nat :=
  (d.digits.take n ++ List.replicate (n - d.digits.length) 0).foldl (fun (acc : Nat) (x : Fin 10) => 10 * acc + x.val) 0

/-- A command with its operand words (assumption 17). -/
def present (b : Build) (i : Instr) (a bb : Word b.W) : HostInput b.W := .command ⟨encode i, a, bb⟩

/-- `FX.ENC fd, <decimal>` (R60, R127). `B` is below `10^N` and always fits. An integer part of `2^W` or more does not fit `A`,
and the spec does not say what is presented then: the model reduces it modulo `2^W` (DESIGN CHOICE, assumption 20, unsafe: such
a literal can reach FX.ENC as a legal operand). An integer part from `2^N` up to `2^W - 1` is presented as it is, and refused
(R126). -/
def assembleEnc (b : Build) (fd : Reg) (d : Decimal) : HostInput b.W :=
  present b (.fxEnc fd d.minus) (BitVec.ofNat b.W d.ip) (BitVec.ofNat b.W (d.scaled b.N))

/-- The pseudo-instructions (R61). -/
inductive Pseudo where
  | addd
  | subd
  | andd
  | xord
  | muld
  | divd
deriving DecidableEq, Repr

/-- The operator of a pseudo-instruction, on `fd` and the temporary `f15` (R61). -/
def Pseudo.operator (p : Pseudo) (fd : Reg) : Instr :=
  match p with
  | .addd => .fxAdd fd 15
  | .subd => .fxSub fd 15
  | .andd => .fxAnd fd 15
  | .xord => .fxXor fd 15
  | .muld => .fxMul fd 15
  | .divd => .fxDiv fd 15

/-- The expansion of a pseudo-instruction; none when `fd` is `f15`, which is not allowed (R61).
The host must not issue the second command when the first is refused. The right operand is the temporary FX.ENC builds (R158), so
assumption 20 holds of its integer part too; the operand words of the second command, which it does not read, are 0
(assumption 17). -/
def expand (b : Build) (p : Pseudo) (fd : Reg) (d : Decimal) : Option (List (HostInput b.W)) :=
  if fd = 15 then none else some [assembleEnc b 15 d, present b (p.operator fd) 0 0]

/-- Decimal digits of `m`, padded on the left with zeros to exactly `n` digits (R137). -/
def fixedDigits : (n m : Nat) → List Char
  | 0, _ => []
  | n + 1, m => fixedDigits n (m / 10) ++ [Nat.digitChar (m % 10)]

/-- The string of an FX.STR response (R137): `-` when `rsign` is 1, the integer digits, a point, `n` fractional digits. -/
def renderString {w : Nat} (n : Nat) (r : Response w) : List Char :=
  (if r.rsign then ['-'] else []) ++ Nat.toDigits 10 r.result.toNat ++ ['.'] ++ fixedDigits n r.result2.toNat

end Sys2Proof.Machine.HostSide
end

