-- ==== Sys2Proof/Safety.lean ====
section
/-! DEFINITION. The terms the claims use: which registers a command reads and writes, what a command may change, the number a
register stands for, the consistency of its decimal magnitude, what the host can tell of a state, and a run without refusals
(spec/10_state.md R28, R29; spec/60_exceptions.md R165, R167; spec/70_reset_and_hazards.md R191). -/

namespace Sys2Proof

/-- The registers whose valid bit a command checks (R167). -/
def Instr.reads : Instr → List Reg
  | .add | .sub | .mul | .div | .mod | .gcd | .pow | .neg | .inc | .dec => []
  | .fxEnc _ _ => []
  | .fxCopy _ fs | .fxGetrep fs | .fxGetfld fs | .fxStr fs | .fxGetmag fs => [fs]
  | .fxSetrep fd | .fxShl fd _ | .fxShr fd _ => [fd]
  | .fxAdd fd fs | .fxSub fd fs | .fxMul fd fs | .fxDiv fd fs | .fxAnd fd fs | .fxXor fd fs => [fd, fs]

/-- The register a command writes when it completes. -/
def Instr.dest : Instr → Option Reg
  | .add | .sub | .mul | .div | .mod | .gcd | .pow | .neg | .inc | .dec => none
  | .fxGetrep _ | .fxGetfld _ | .fxStr _ | .fxGetmag _ => none
  | .fxEnc fd _ | .fxSetrep fd | .fxShl fd _ | .fxShr fd _ => some fd
  | .fxCopy fd _ | .fxAdd fd _ | .fxSub fd _ | .fxMul fd _ | .fxDiv fd _ | .fxAnd fd _ | .fxXor fd _ => some fd

/-- The command constructs register `j`: FX.ENC or FX.COPY into it (R27, R182). -/
def Instr.constructs (i : Instr) (j : Reg) : Bool :=
  match i with
  | .fxEnc fd _ => fd == j
  | .fxCopy fd _ => fd == j
  | _ => false

/-- FX.DIV, the one command whose value depends on the variant (R65). -/
def Instr.isFxDiv : Instr → Bool
  | .fxDiv _ _ => true
  | _ => false

/-- `(-1)^sign * uval(packed)`: the represented number times `2^N` (R131). -/
def FxVal.scaled {n w : Nat} (x : FxVal n w) : Int := if x.sign then -(x.packed.toNat : Int) else x.packed.toNat

/-- The decimal magnitude agrees with the packed integer (R25, R28): the integer part is the integer field, the fraction is
below `10^N`, and encoding it gives the fractional field. -/
def FxVal.Consistent {n w : Nat} (x : FxVal n w) : Prop :=
  x.mi.toNat = x.packed.toNat / 2 ^ n ∧ x.mf.toNat < 10 ^ n ∧ x.packed.toNat % 2 ^ n = x.mf.toNat * 2 ^ n / 10 ^ n

namespace Machine

/-- Every valid register's magnitude agrees with its packed integer. -/
def State.MagnitudeInv (s : State) : Prop := ∀ i : Reg, s.valid i = true → (s.freg i).Consistent

/-- `t` is `s` with the response `r` added and, at most, register `d` written: every other register and valid bit, the
operand words, the coming inputs and the build are those of `s` (R29, R43). -/
def State.ChangedOnly (s t : State) (d : Option Reg) (r : Response s.build.W) : Prop :=
  ∃ (g : Vector (FxVal s.build.N s.build.W) NF) (v : Vector Bool NF),
    t = { s with f := g, v := v, responses := s.responses ++ [r] } ∧
      ∀ j : Reg, d ≠ some j → g.get j = s.f.get j ∧ v.get j = s.v.get j

/-- What the host may rely on in a response (R52): the status, and the value fields only when it is OK. -/
def Response.seen {w : Nat} (r : Response w) : Status × Option (Word w × Word w × Bool) :=
  (r.status, if r.status = .ok then some (r.result, r.result2, r.rsign) else none)

/-- The host cannot tell `t` from `s` (R180, R191): they differ at most in the fields of invalid registers, in operand words
left over from earlier commands, in the value fields of non-OK responses and in the model's counter of free values. -/
def State.Indistinguishable (s t : State) : Prop :=
  ∃ (g : Vector (FxVal s.build.N s.build.W) NF) (a b : Word s.build.W) (l : List (Response s.build.W)) (k : Nat),
    t = { s with f := g, opA := a, opB := b, responses := l, draws := k } ∧
      (∀ j : Reg, s.valid j = true → g.get j = s.f.get j) ∧
      l.map Response.seen = s.responses.map Response.seen

/-- No command of the run so far was refused: the premise R167 asks of a claim about a command sequence. -/
def State.NoneRefused (s : State) : Prop := ∀ r ∈ s.responses, r.status ≠ .refused

end Machine

end Sys2Proof
end

