-- ==== Sys2Proof/Certificates/Slice0/Obligations.lean ====
section
/-! DEFINITION. The statements for the provers, from the numbered rules of spec/. `s.answer x y g` is the completion of a
command: an OK response with these value fields, nothing else changed; `s.fail st` is a failing one; `s.store d x r` is the
completion that writes register `d` with `x` and answers `r`; `s.assignReceiver d v` is the setter with its response (R145). -/

open Sys2Proof Sys2Proof.Machine

/-! ## Encoding -/

/-- Decoding the word of any command gives the command back (R53, R54, R56). -/
def Obligations.DecodeInvertsEncode : Prop := ∀ i : Instr, decode (encode i) = .ok i

/-- A word that spells a command is that command's word: no two words spell one command (R53, R58). -/
def Obligations.EncodeInvertsDecode : Prop := ∀ (c : BitVec 32) (i : Instr), decode c = .ok i → encode i = c

/-- A word spells a command exactly when it matches the mask and match value of that command's row (R54). -/
def Obligations.DecodeIsMaskAndMatch : Prop :=
  ∀ (c : BitVec 32),
    (∀ i, decode c = .ok i → c &&& i.format.mask = i.opcode.setWidth 32) ∧
    ((∃ i : Instr, c &&& i.format.mask = i.opcode.setWidth 32) → ∃ j, decode c = .ok j)

/-- Words of each format written out from R53 and R56 decode to their commands. -/
def Obligations.SampleWordsDecode : Prop :=
  decode 0x00000001#32 = .ok .add ∧ decode 0x0000000A#32 = .ok .dec ∧ decode 0x01000F10#32 = .ok (.fxEnc 15 true) ∧
  decode 0x0000F220#32 = .ok (.fxAdd 2 15) ∧ decode 0x00001015#32 = .ok (.fxStr 1) ∧
  decode 0x00400126#32 = .ok (.fxShl 1 64#8) ∧ decode 0x00000313#32 = .ok (.fxSetrep 3)

/-- A command whose opcode is not in the opcode map is answered REFUSED and changes no other state (R57). -/
def Obligations.ReservedOpcodeIsRefused : Prop :=
  ∀ (s : State) (c : Command s.build.W) (rest : List (HostInput s.build.W)), s.inputs = .command c :: rest →
    (∀ i : Instr, c.cmd.extractLsb' 0 8 ≠ i.opcode) → step s = .next ((s.accept c rest).fail .refused)

/-- A command with a nonzero bit in the reserved field or in a field its format does not use is answered REFUSED (R58). -/
def Obligations.NonzeroUnusedFieldIsRefused : Prop :=
  ∀ (s : State) (c : Command s.build.W) (rest : List (HostInput s.build.W)) (i : Instr), s.inputs = .command c :: rest →
    c.cmd.extractLsb' 0 8 = i.opcode → c.cmd &&& i.format.mask ≠ i.opcode.setWidth 32 →
    step s = .next ((s.accept c rest).fail .refused)

/-! ## The step and the host -/

/-- A step runs the decoded command: it is `exec` of the command at the state in which the operand words have been sampled
and the input consumed. That the commands to come stand in `State` is the model's choice (assumption 2). -/
def Obligations.StepRunsTheDecodedCommand : Prop :=
  ∀ (s : State) (c : Command s.build.W) (rest : List (HostInput s.build.W)) (i : Instr),
    s.inputs = .command c :: rest → decode c.cmd = .ok i →
    step s = exec i { s with opA := c.a, opB := c.b, inputs := rest }

/-- An idle core keeps all its state; reset clears every valid bit and drops the command in flight; a broken handshake has no
move. That the host's coming inputs stand in `State`, that reset keeps the later ones and empties the record of the answers
given, and that the missing move is a fault are the model's choices (assumptions 2, 8, 9, 10). -/
def Obligations.IdleResetAndBreachSteps : Prop :=
  (∀ s : State, s.inputs = [] → step s = .next s) ∧
  (∀ (s : State) (o : Option (Command s.build.W)) (rest : List (HostInput s.build.W)), s.inputs = .reset o :: rest →
    step s = .next (State.resetWith s.build rest s.draws) ∧ (∀ j, (State.resetWith s.build rest s.draws).valid j = false) ∧
    (State.resetWith s.build rest s.draws).responses.length = 0) ∧
  (∀ (s : State) (rest : List (HostInput s.build.W)), s.inputs = .handshakeBreach :: rest → step s = .fault .handshakeBroken)

/-- After reset every valid bit is 0, on every build (R33, R180). The other clauses are the model's choices: that the list of
what the host will do is empty (assumption 2); that the model's record of the answers given since reset starts empty
(assumptions 9, 10); that the build is carried in the state, and that `State.reset` is the default build, `N = 16` and `W = 64`
(assumption 1). -/
def Obligations.ResetState : Prop :=
  (∀ b : Build, (State.resetOf b).build = b ∧ (∀ j, (State.resetOf b).valid j = false) ∧
    (State.resetOf b).responses.length = 0 ∧ (State.resetOf b).inputs.length = 0) ∧
  State.reset = State.resetOf Build.default16 ∧ State.reset.build.N = 16 ∧ State.reset.build.W = 64

/-- No step changes the static parameters (R5, R181). -/
def Obligations.BuildNeverChanges : Prop := ∀ s t : State, step s = .next t → t.build = s.build

/-! ## Every command -/

/-- Every command ends in exactly one response and one of two ways: a failing status with nothing else changed, or OK with at
most its destination register written (R52, R165, R43). -/
def Obligations.EveryCommandAnswersOnce : Prop :=
  ∀ (i : Instr) (s : State), ∃ t, exec i s = .next t ∧
    ((∃ st, st ≠ .ok ∧ t = s.fail st) ∨ ∃ r : Response s.build.W, r.status = .ok ∧ s.ChangedOnly t i.dest r)

/-- DivideByZero is raised by DIV and MOD exactly when `B` is 0, by FX.DIV exactly when both registers are valid and the
divisor's packed integer is 0, and by nothing else (R166). -/
def Obligations.DivideByZeroExactlyWhen : Prop :=
  ∀ (i : Instr) (s : State), exec i s = .next (s.fail .divideByZero) ↔
    ((i = .div ∨ i = .mod) ∧ s.opB = 0) ∨
    ∃ fd fs, i = .fxDiv fd fs ∧ s.valid fd = true ∧ s.valid fs = true ∧ (s.freg fs).packed = 0

/-- A command is answered REFUSED exactly for a malformed word, a shift amount of `W` or more, an FX.ENC operand out of range
or an invalid register among those it reads (R167). -/
def Obligations.RefusedExactlyWhen : Prop :=
  ∀ (s : State) (c : Command s.build.W) (rest : List (HostInput s.build.W)), s.inputs = .command c :: rest →
    (step s = .next ((s.accept c rest).fail .refused) ↔
      (∀ i : Instr, c.cmd &&& i.format.mask ≠ i.opcode.setWidth 32) ∨
      ∃ i, decode c.cmd = .ok i ∧
        ((∃ fd sh, (i = .fxShl fd sh ∨ i = .fxShr fd sh) ∧ s.build.W ≤ sh.toNat) ∨
         (∃ fd sg, i = .fxEnc fd sg ∧ (2 ^ s.build.N ≤ c.a.toNat ∨ 10 ^ s.build.N ≤ c.b.toNat)) ∨
         ∃ r ∈ i.reads, s.valid r = false))

/-- No command clears a valid bit, and only FX.ENC and FX.COPY set one (R27). -/
def Obligations.ValidBitsOnlyGrow : Prop :=
  ∀ (i : Instr) (s t : State) (j : Reg), exec i s = .next t →
    (s.valid j = true → t.valid j = true) ∧ (s.valid j = false → t.valid j = true → i.constructs j = true)

/-- A register's sign, once 1, stays 1 under every command but FX.ENC and FX.COPY into it (R134, R189); at `N = 32` FX.DIV is
left out, whose value is open (R156). -/
def Obligations.SignSticks : Prop :=
  ∀ (i : Instr) (s t : State) (j : Reg), exec i s = .next t → i.constructs j = false →
    (s.build.variant = .n32 → i.isFxDiv = false) → (s.freg j).sign = true → (t.freg j).sign = true

/-- The status codes are 0, 1 and 2; code 3 is never produced (R168). -/
def Obligations.StatusCodes : Prop :=
  Flags.statusCode .ok = 0#2 ∧ Flags.statusCode .divideByZero = 1#2 ∧ Flags.statusCode .refused = 2#2 ∧
  ∀ st, Flags.statusCode st ≠ 3#2

/-! ## Invariants -/

/-- In every valid register the decimal magnitude agrees with the packed integer (R25, R28), and every step keeps it so at
`N = 16`; on every build, every command but FX.DIV at `N = 32`, whose value is open (R156), keeps it so. -/
def Obligations.MagnitudeAgreesForever : Prop :=
  (∀ s t : State, s.build.variant = .n16 → s.MagnitudeInv → step s = .next t → t.MagnitudeInv) ∧
  ∀ (i : Instr) (s t : State), (s.build.variant = .n32 → i.isFxDiv = false) → s.MagnitudeInv → exec i s = .next t →
    t.MagnitudeInv

/-- The magnitude agrees at reset, on every build. -/
def Obligations.MagnitudeAgreesAtReset : Prop := ∀ b : Build, (State.resetOf b).MagnitudeInv

/-- The host cannot learn what the spec leaves unspecified: two states that differ only there step to states that differ only
there (R180, R27, R32, R52). -/
def Obligations.UnspecifiedNeverShows : Prop :=
  ∀ s t : State, s.Indistinguishable t →
    (∀ s', step s = .next s' → ∃ t', step t = .next t' ∧ s'.Indistinguishable t') ∧
    (∀ e, step s = .fault e → step t = .fault e) ∧ ∀ e, step s ≠ .refused e

/-! ## Adder and subtractor -/

/-- ADD (R70, R71): the wrapped sum, for all operands; the carry loop ends within `W` steps with it: more fuel changes
nothing. -/
def Obligations.AddWrapsTheSum : Prop :=
  decode 0x00000001#32 = .ok .add ∧
  (∀ s : State, exec .add s = .next (s.answer (wrap s.build.W (sval s.opA + sval s.opB)))) ∧
  ∀ (w k : Nat) (a b : Word w), w ≤ k → Kernel.carryLoop k a b = wrap w (sval a + sval b)

/-- SUB (R72): the wrapped difference, for all operands; the borrow loop ends within `W` steps with it: more fuel changes
nothing. -/
def Obligations.SubWrapsTheDifference : Prop :=
  decode 0x00000002#32 = .ok .sub ∧
  (∀ s : State, exec .sub s = .next (s.answer (wrap s.build.W (sval s.opA - sval s.opB)))) ∧
  ∀ (w k : Nat) (a b : Word w), w ≤ k → Kernel.borrowLoop k a b = wrap w (sval a - sval b)

/-- INC (R73). -/
def Obligations.IncAddsOne : Prop :=
  decode 0x00000009#32 = .ok .inc ∧ ∀ s : State, exec .inc s = .next (s.answer (wrap s.build.W (sval s.opA + 1)))

/-- DEC (R77). -/
def Obligations.DecSubtractsOne : Prop :=
  decode 0x0000000A#32 = .ok .dec ∧ ∀ s : State, exec .dec s = .next (s.answer (wrap s.build.W (sval s.opA - 1)))

/-- NEG (R74): the wrapped negation; the negation of `MIN` is `MIN`, and negating twice gives the operand back. -/
def Obligations.NegWrapsTheNegation : Prop :=
  decode 0x00000008#32 = .ok .neg ∧
  (∀ s : State, exec .neg s = .next (s.answer (wrap s.build.W (-sval s.opA)))) ∧
  (∀ w, Kernel.neg (minWord w) = minWord w) ∧ ∀ w (a : Word w), Kernel.neg (Kernel.neg a) = a

/-! ## Multiplier and power -/

/-- MUL (R91): the wrapped product. -/
def Obligations.MulWrapsTheProduct : Prop :=
  decode 0x00000003#32 = .ok .mul ∧
  ∀ s : State, exec .mul s = .next (s.answer (wrap s.build.W (sval s.opA * sval s.opB)))

/-- POW (R92): 1 for exponent 0 or base 1, else 0 for a negative exponent, else the wrapped power. -/
def Obligations.PowWrapsThePower : Prop :=
  decode 0x00000007#32 = .ok .pow ∧
  ∀ s : State, exec .pow s = .next (s.answer
    (if s.opB = 0 ∨ sval s.opA = 1 then wrap s.build.W 1
     else if sval s.opB < 0 then 0
     else wrap s.build.W (sval s.opA ^ (sval s.opB).toNat)))

/-- The value POW computes directly is that of the spec's linear loop, one multiplication per unit of the exponent (R93). -/
def Obligations.PowEqualsTheLinearLoop : Prop :=
  ∀ (w : Nat) (a b : Word w), b ≠ 0 → a ≠ 1 → 0 ≤ sval b → Kernel.power a b = Kernel.powLoop a (sval b).toNat 1

/-! ## Divider -/

/-- DIV (R103): the wrapped floor quotient, or DivideByZero when `B` is 0, whatever `A` is. -/
def Obligations.DivFloors : Prop :=
  decode 0x00000004#32 = .ok .div ∧
  (∀ s : State, s.opB ≠ 0 → exec .div s = .next (s.answer (wrap s.build.W (Int.fdiv (sval s.opA) (sval s.opB))))) ∧
  ∀ s : State, s.opB = 0 → exec .div s = .next (s.fail .divideByZero)

/-- MOD (R105): the remainder that goes with floor division; it is 0 or has the sign of the divisor, and is smaller than the
divisor in magnitude; DivideByZero when `B` is 0. -/
def Obligations.ModTakesTheDivisorsSign : Prop :=
  decode 0x00000005#32 = .ok .mod ∧
  (∀ s : State, s.opB ≠ 0 → ∃ r : Word s.build.W, exec .mod s = .next (s.answer r) ∧
    r = wrap s.build.W (sval s.opA - Int.fdiv (sval s.opA) (sval s.opB) * sval s.opB) ∧
    (r = 0 ∨ (sval r < 0 ↔ sval s.opB < 0)) ∧ (sval r).natAbs < (sval s.opB).natAbs) ∧
  ∀ s : State, s.opB = 0 → exec .mod s = .next (s.fail .divideByZero)

/-- The restoring loop (R101): the quotient is the floor, the remainder is the scaled remainder; so the divisibility probe
(R102) is true exactly when `|b|` divides `|a|`. -/
def Obligations.RestoringLoopDivides : Prop :=
  (∀ m d : Nat, 0 < m → 0 < d → Kernel.udiv m d = (m / d, (((m % d) * 2 ^ Kernel.bitlen m : Nat) : Int))) ∧
  ∀ (w : Nat) (a b : Word w), a ≠ 0 → b ≠ 0 → (Kernel.divisible a b = true ↔ (sval b).natAbs ∣ (sval a).natAbs)

/-- The one overflowing quotient wraps, `MIN / -1 = MIN`; the other quotients by or of `MIN` are exact (R107). -/
def Obligations.DivOfMinWord : Prop :=
  ∀ w : Nat, 3 ≤ w →
    Kernel.divide (minWord w) (wrap w (-1)) = some (minWord w) ∧ Kernel.divide (minWord w) (wrap w 1) = some (minWord w) ∧
    Kernel.divide (minWord w) (minWord w) = some (wrap w 1) ∧
    Kernel.divide (minWord w) (wrap w 2) = some (wrap w (-2 ^ (w - 2))) ∧
    Kernel.divide (maxWord w) (minWord w) = some (wrap w (-1)) ∧ Kernel.divide (wrap w 1) (minWord w) = some (wrap w (-1)) ∧
    Kernel.modulo (minWord w) (wrap w (-1)) = some 0

/-! ## GCD -/

/-- GCD (R117): the wrapped greatest common divisor of the magnitudes, for all operands; 0 when both are 0. -/
def Obligations.GcdOfTheMagnitudes : Prop :=
  decode 0x00000006#32 = .ok .gcd ∧
  ∀ s : State, exec .gcd s = .next (s.answer (wrap s.build.W (Nat.gcd (sval s.opA).natAbs (sval s.opB).natAbs)))

/-- The GCD recursion ends within `2W` steps: more fuel changes nothing (R116). -/
def Obligations.GcdEndsWithinTwoW : Prop :=
  ∀ (w k : Nat) (x y : Word w), 2 * w ≤ k → Kernel.gcdSteps k x y = Kernel.gcdSteps (2 * w) x y

/-! ## Fixed-point codec -/

/-- The signed view of every register is the signed packed integer, which always fits a word (R131). -/
def Obligations.ViewIsTheSignedPackedInteger : Prop :=
  ∀ (s : State) (i : Reg), s.view i = wrap s.build.W (s.freg i).scaled ∧ sval (s.view i) = (s.freg i).scaled

/-- The doubling loop computes the truncated binary fraction, never above the fraction and less than `2^-N` below it
(R129). -/
def Obligations.FractionIsTruncated : Prop :=
  ∀ n fd : Nat, fd < 10 ^ n → Fx.fracBits n fd = fd * 2 ^ n / 10 ^ n ∧
    Fx.fracBits n fd * 10 ^ n ≤ fd * 2 ^ n ∧ fd * 2 ^ n < (Fx.fracBits n fd + 1) * 10 ^ n

/-- FX.ENC (R126): packed from the integer part and the truncated fraction, minus zero not negative, the magnitude stored as
given; REFUSED when the operand is out of range. -/
def Obligations.EncStoresTheDecimal : Prop :=
  (∀ (fd : Reg) (sg : Bool), decode (BitVec.ofNat 32 (0x10 + fd.val * 2 ^ 8 + sg.toNat * 2 ^ 24)) = .ok (.fxEnc fd sg)) ∧
  (∀ (fd : Reg) (sg : Bool) (s : State), s.opA.toNat < 2 ^ s.build.N → s.opB.toNat < 10 ^ s.build.N →
    let x : FxVal s.build.N s.build.W :=
      { sign := sg && decide (s.opA ≠ 0 ∨ s.opB ≠ 0)
        packed := BitVec.ofNat _ (s.opA.toNat * 2 ^ s.build.N + s.opB.toNat * 2 ^ s.build.N / 10 ^ s.build.N)
        mi := s.opA
        mf := s.opB }
    exec (.fxEnc fd sg) s = .next (s.store fd x (okResponse (wrap s.build.W x.scaled) 0 x.sign))) ∧
  ∀ (fd : Reg) (sg : Bool) (s : State), 2 ^ s.build.N ≤ s.opA.toNat ∨ 10 ^ s.build.N ≤ s.opB.toNat →
    exec (.fxEnc fd sg) s = .next (s.fail .refused)

/-- FX.COPY (R130): all four fields are copied, no value field is driven; REFUSED when the source is invalid. -/
def Obligations.CopyCopiesAllFields : Prop :=
  (∀ fd fs : Reg, decode (BitVec.ofNat 32 (0x11 + fd.val * 2 ^ 8 + fs.val * 2 ^ 12)) = .ok (.fxCopy fd fs)) ∧
  (∀ (fd fs : Reg) (s : State), s.valid fs = true →
    exec (.fxCopy fd fs) s = .next (s.store fd (s.freg fs) (okResponse 0 0 false))) ∧
  ∀ (fd fs : Reg) (s : State), s.valid fs = false → exec (.fxCopy fd fs) s = .next (s.fail .refused)

/-- FX.GETREP and FX.GETFLD (R132, R136): the signed view, the packed integer, each with the sign; no state changes. -/
def Obligations.GetrepAndGetfldRead : Prop :=
  (∀ fs : Reg, decode (BitVec.ofNat 32 (0x12 + fs.val * 2 ^ 12)) = .ok (.fxGetrep fs) ∧
    decode (BitVec.ofNat 32 (0x14 + fs.val * 2 ^ 12)) = .ok (.fxGetfld fs)) ∧
  (∀ (fs : Reg) (s : State), s.valid fs = true →
    exec (.fxGetrep fs) s = .next (s.answer (wrap s.build.W (s.freg fs).scaled) 0 (s.freg fs).sign) ∧
    exec (.fxGetfld fs) s = .next (s.answer (wrap s.build.W (s.freg fs).packed.toNat) 0 (s.freg fs).sign)) ∧
  ∀ (fs : Reg) (s : State), s.valid fs = false →
    exec (.fxGetrep fs) s = .next (s.fail .refused) ∧ exec (.fxGetfld fs) s = .next (s.fail .refused)

/-- FX.STR (R137): the integer field, and the fractional field times `5^N`, which is below `10^N`; made from `packed`. -/
def Obligations.StrReadsTheDigits : Prop :=
  (∀ fs : Reg, decode (BitVec.ofNat 32 (0x15 + fs.val * 2 ^ 12)) = .ok (.fxStr fs)) ∧
  (∀ (fs : Reg) (s : State), s.valid fs = true → ∃ ip fr : Word s.build.W,
    exec (.fxStr fs) s = .next (s.answer ip fr (s.freg fs).sign) ∧
    ip.toNat = (s.freg fs).packed.toNat / 2 ^ s.build.N ∧
    fr.toNat = (s.freg fs).packed.toNat % 2 ^ s.build.N * 5 ^ s.build.N ∧ fr.toNat < 10 ^ s.build.N) ∧
  ∀ (fs : Reg) (s : State), s.valid fs = false → exec (.fxStr fs) s = .next (s.fail .refused)

/-- FX.GETMAG (R138): the stored magnitude, `rsign` 0; no state changes. -/
def Obligations.GetmagReadsTheMagnitude : Prop :=
  (∀ fs : Reg, decode (BitVec.ofNat 32 (0x16 + fs.val * 2 ^ 12)) = .ok (.fxGetmag fs)) ∧
  (∀ (fs : Reg) (s : State), s.valid fs = true →
    exec (.fxGetmag fs) s = .next (s.answer (s.freg fs).mi (s.freg fs).mf false)) ∧
  ∀ (fs : Reg) (s : State), s.valid fs = false → exec (.fxGetmag fs) s = .next (s.fail .refused)

/-- The setter (R133, R134): the sign is the old one OR that of the word, `packed` is the magnitude modulo `2^(2N)`, and the
decimal magnitude is re-derived from it; the register becomes valid, no other is touched, and the receiver is returned. -/
def Obligations.SetterClosedForm : Prop :=
  ∀ (s : State) (d : Reg) (v : Word s.build.W), ∃ x : FxVal s.build.N s.build.W,
    s.assignReceiver d v = s.store d x (okResponse (wrap s.build.W x.scaled) 0 x.sign) ∧
    x.sign = ((s.freg d).sign || decide (sval v < 0)) ∧
    x.packed.toNat = (sval v).natAbs % 2 ^ (2 * s.build.N) ∧
    x.mi.toNat = x.packed.toNat / 2 ^ s.build.N ∧
    x.mf.toNat = x.packed.toNat % 2 ^ s.build.N * 5 ^ s.build.N

/-- A setter command returns the assigned word itself when the receiver was not negative or the word is, and the word's
magnitude fits `2N` bits (R145). -/
def Obligations.ViewAfterSetter : Prop :=
  ∀ (s : State) (d : Reg) (v : Word s.build.W), (s.freg d).sign = false ∨ sval v < 0 →
    (sval v).natAbs < 2 ^ (2 * s.build.N) →
    ∃ x : FxVal s.build.N s.build.W,
      s.assignReceiver d v = s.store d x (okResponse v 0 ((s.freg d).sign || decide (sval v < 0))) ∧
      x.scaled = sval v

/-- FX.SETREP (R135): the operand word goes through the setter, and the receiver's new view and sign are returned. -/
def Obligations.SetrepAssignsTheOperand : Prop :=
  (∀ fd : Reg, decode (BitVec.ofNat 32 (0x13 + fd.val * 2 ^ 8)) = .ok (.fxSetrep fd)) ∧
  (∀ (fd : Reg) (s : State), s.valid fd = true → ∃ x : FxVal s.build.N s.build.W,
    exec (.fxSetrep fd) s = .next (s.store fd x (okResponse (wrap s.build.W x.scaled) 0 x.sign)) ∧
    x.sign = ((s.freg fd).sign || decide (sval s.opA < 0)) ∧
    x.packed.toNat = (sval s.opA).natAbs % 2 ^ (2 * s.build.N) ∧
    x.mi.toNat = x.packed.toNat / 2 ^ s.build.N ∧
    x.mf.toNat = x.packed.toNat % 2 ^ s.build.N * 5 ^ s.build.N) ∧
  ∀ (fd : Reg) (s : State), s.valid fd = false → exec (.fxSetrep fd) s = .next (s.fail .refused)

/-- Encoding a legal decimal and reading its string back keeps the integer part and the sign, and loses less than `2^-N` of
the fraction, never gaining (R139). -/
def Obligations.EncodeThenStringRoundTrip : Prop :=
  ∀ (s : State) (fd : Reg) (sg : Bool), s.opA.toNat < 2 ^ s.build.N → s.opB.toNat < 10 ^ s.build.N →
    ∃ (x : FxVal s.build.N s.build.W) (r : Response s.build.W) (fr : Word s.build.W),
      exec (.fxEnc fd sg) s = .next (s.store fd x r) ∧
      exec (.fxStr fd) (s.store fd x r) =
        .next ((s.store fd x r).answer s.opA fr (sg && decide (s.opA ≠ 0 ∨ s.opB ≠ 0))) ∧
      fr.toNat ≤ s.opB.toNat ∧ (s.opB.toNat - fr.toNat) * 2 ^ s.build.N < 10 ^ s.build.N

/-! ## Fixed-point operators -/

/-- FX.ADD (R146): the wrapped sum of the two views goes into the receiver through the setter; REFUSED for an invalid register. -/
def Obligations.FxAddOperator : Prop :=
  (∀ fd fs : Reg, decode (BitVec.ofNat 32 (0x20 + fd.val * 2 ^ 8 + fs.val * 2 ^ 12)) = .ok (.fxAdd fd fs)) ∧
  (∀ (fd fs : Reg) (s : State), s.valid fd = true → s.valid fs = true →
    exec (.fxAdd fd fs) s = .next (s.assignReceiver fd (wrap s.build.W ((s.freg fd).scaled + (s.freg fs).scaled)))) ∧
  ∀ (fd fs : Reg) (s : State), s.valid fd = false ∨ s.valid fs = false → exec (.fxAdd fd fs) s = .next (s.fail .refused)

/-- FX.SUB (R147): the wrapped difference of the two views goes into the receiver through the setter; REFUSED for an invalid register. -/
def Obligations.FxSubOperator : Prop :=
  (∀ fd fs : Reg, decode (BitVec.ofNat 32 (0x21 + fd.val * 2 ^ 8 + fs.val * 2 ^ 12)) = .ok (.fxSub fd fs)) ∧
  (∀ (fd fs : Reg) (s : State), s.valid fd = true → s.valid fs = true →
    exec (.fxSub fd fs) s = .next (s.assignReceiver fd (wrap s.build.W ((s.freg fd).scaled - (s.freg fs).scaled)))) ∧
  ∀ (fd fs : Reg) (s : State), s.valid fd = false ∨ s.valid fs = false → exec (.fxSub fd fs) s = .next (s.fail .refused)

/-- FX.AND (R148): the bitwise AND of the two views goes into the receiver through the setter; REFUSED for an invalid register. -/
def Obligations.FxAndOperator : Prop :=
  (∀ fd fs : Reg, decode (BitVec.ofNat 32 (0x24 + fd.val * 2 ^ 8 + fs.val * 2 ^ 12)) = .ok (.fxAnd fd fs)) ∧
  (∀ (fd fs : Reg) (s : State), s.valid fd = true → s.valid fs = true →
    exec (.fxAnd fd fs) s = .next (s.assignReceiver fd (s.view fd &&& s.view fs))) ∧
  ∀ (fd fs : Reg) (s : State), s.valid fd = false ∨ s.valid fs = false → exec (.fxAnd fd fs) s = .next (s.fail .refused)

/-- FX.XOR (R149): the bitwise XOR of the two views goes into the receiver through the setter; REFUSED for an invalid register. -/
def Obligations.FxXorOperator : Prop :=
  (∀ fd fs : Reg, decode (BitVec.ofNat 32 (0x25 + fd.val * 2 ^ 8 + fs.val * 2 ^ 12)) = .ok (.fxXor fd fs)) ∧
  (∀ (fd fs : Reg) (s : State), s.valid fd = true → s.valid fs = true →
    exec (.fxXor fd fs) s = .next (s.assignReceiver fd (s.view fd ^^^ s.view fs))) ∧
  ∀ (fd fs : Reg) (s : State), s.valid fd = false ∨ s.valid fs = false → exec (.fxXor fd fs) s = .next (s.fail .refused)

/-- FX.MUL (R150): the wrapped product of the two views, floored by `2^N` goes into the receiver
through the setter; REFUSED for an invalid register. -/
def Obligations.FxMulOperator : Prop :=
  (∀ fd fs : Reg, decode (BitVec.ofNat 32 (0x22 + fd.val * 2 ^ 8 + fs.val * 2 ^ 12)) = .ok (.fxMul fd fs)) ∧
  (∀ (fd fs : Reg) (s : State), s.valid fd = true → s.valid fs = true →
    exec (.fxMul fd fs) s = .next (s.assignReceiver fd
      (wrap s.build.W (Int.fdiv (sval (wrap s.build.W ((s.freg fd).scaled * (s.freg fs).scaled))) (2 ^ s.build.N))))) ∧
  ∀ (fd fs : Reg) (s : State), s.valid fd = false ∨ s.valid fs = false → exec (.fxMul fd fs) s = .next (s.fail .refused)

/-- FX.DIV at `N = 16` (R151): the floor quotient of the two views times `2^N` goes into the receiver through the setter;
DivideByZero when the divisor's packed integer is 0, whatever its sign; REFUSED for an invalid register, which comes first. -/
def Obligations.FxDivOperator : Prop :=
  (∀ fd fs : Reg, decode (BitVec.ofNat 32 (0x23 + fd.val * 2 ^ 8 + fs.val * 2 ^ 12)) = .ok (.fxDiv fd fs)) ∧
  (∀ (fd fs : Reg) (s : State), s.build.variant = .n16 → s.valid fd = true → s.valid fs = true → (s.freg fs).packed ≠ 0 →
    exec (.fxDiv fd fs) s = .next (s.assignReceiver fd
      (wrap s.build.W (Int.fdiv (s.freg fd).scaled (s.freg fs).scaled * 2 ^ s.build.N)))) ∧
  (∀ (fd fs : Reg) (s : State), s.valid fd = true → s.valid fs = true → (s.freg fs).packed = 0 →
    exec (.fxDiv fd fs) s = .next (s.fail .divideByZero)) ∧
  ∀ (fd fs : Reg) (s : State), s.valid fd = false ∨ s.valid fs = false → exec (.fxDiv fd fs) s = .next (s.fail .refused)

/-- FX.DIV at `N = 32` (R156): what is stored is the open parameter of the two registers; the receiver alone is written, and
the response reports it. -/
def Obligations.FxDivWideStoresTheOpenValue : Prop :=
  ∀ (fd fs : Reg) (s : State), s.build.variant = .n32 → s.valid fd = true → s.valid fs = true → (s.freg fs).packed ≠ 0 →
    let x := Config.hpdiv32 s.build.N s.build.W (s.freg fd) (s.freg fs)
    exec (.fxDiv fd fs) s = .next (s.store fd x (okResponse (wrap s.build.W x.scaled) 0 x.sign))

/-- FX.SHL (R152): the view times `2^sh`, wrapped, goes into the receiver through the setter; REFUSED for `sh >= W` or an
invalid register. -/
def Obligations.FxShlOperator : Prop :=
  (∀ (fd : Reg) (sh : BitVec 8), decode (BitVec.ofNat 32 (0x26 + fd.val * 2 ^ 8 + sh.toNat * 2 ^ 16)) = .ok (.fxShl fd sh)) ∧
  (∀ (fd : Reg) (sh : BitVec 8) (s : State), s.valid fd = true → sh.toNat < s.build.W →
    exec (.fxShl fd sh) s = .next (s.assignReceiver fd (wrap s.build.W ((s.freg fd).scaled * 2 ^ sh.toNat)))) ∧
  ∀ (fd : Reg) (sh : BitVec 8) (s : State), s.valid fd = false ∨ s.build.W ≤ sh.toNat →
    exec (.fxShl fd sh) s = .next (s.fail .refused)

/-- FX.SHR (R153): the view floored by `2^sh` goes into the receiver through the setter; REFUSED for `sh >= W` or an invalid
register. -/
def Obligations.FxShrOperator : Prop :=
  (∀ (fd : Reg) (sh : BitVec 8), decode (BitVec.ofNat 32 (0x27 + fd.val * 2 ^ 8 + sh.toNat * 2 ^ 16)) = .ok (.fxShr fd sh)) ∧
  (∀ (fd : Reg) (sh : BitVec 8) (s : State), s.valid fd = true → sh.toNat < s.build.W →
    exec (.fxShr fd sh) s = .next (s.assignReceiver fd (wrap s.build.W (Int.fdiv (s.freg fd).scaled (2 ^ sh.toNat))))) ∧
  ∀ (fd : Reg) (sh : BitVec 8) (s : State), s.valid fd = false ∨ s.build.W ≤ sh.toNat →
    exec (.fxShr fd sh) s = .next (s.fail .refused)

/-- What the shifts do to the packed integer (R152, R153): a left shift keeps its low `2N` bits for either sign; a right shift
rounds a positive register's down and a negative one's up; below `W - 2N` a left shift leaves the sign. -/
def Obligations.ShiftsOfThePackedInteger : Prop :=
  ∀ (fd : Reg) (sh : BitVec 8) (s : State), s.valid fd = true → sh.toNat < s.build.W →
    (∃ t, exec (.fxShl fd sh) s = .next t ∧
      (t.freg fd).packed.toNat = (s.freg fd).packed.toNat * 2 ^ sh.toNat % 2 ^ (2 * s.build.N) ∧
      (sh.toNat < s.build.W - 2 * s.build.N → (t.freg fd).sign = (s.freg fd).sign)) ∧
    ∃ t, exec (.fxShr fd sh) s = .next t ∧ (t.freg fd).sign = (s.freg fd).sign ∧
      (t.freg fd).packed.toNat = if (s.freg fd).sign = true
        then ((s.freg fd).packed.toNat + (2 ^ sh.toNat - 1)) / 2 ^ sh.toNat
        else (s.freg fd).packed.toNat / 2 ^ sh.toNat

/-- Addition where the source's law holds and where it does not (R157, R189): in range, a non-negative receiver or a negative
sum gives the exact sum; a negative receiver with any other sum gives minus its magnitude. -/
def Obligations.FxAddInRange : Prop :=
  ∀ (fd fs : Reg) (s : State), s.valid fd = true → s.valid fs = true →
    let sum := (s.freg fd).scaled + (s.freg fs).scaled
    sum.natAbs < 2 ^ (2 * s.build.N) →
    ∃ t, exec (.fxAdd fd fs) s = .next t ∧
      ((s.freg fd).sign = false ∨ sum < 0 → (t.freg fd).scaled = sum) ∧
      ((s.freg fd).sign = true → (t.freg fd).scaled = -(sum.natAbs : Int))

/-- The same register twice (R154): FX.ADD doubles, FX.SUB and FX.XOR give magnitude 0, FX.AND keeps the magnitude, and FX.DIV
at `N = 16` gives 1.0, each with the register's old sign. -/
def Obligations.SameRegisterTwice : Prop :=
  ∀ (f : Reg) (s : State), s.valid f = true →
    (∃ t, exec (.fxAdd f f) s = .next t ∧ (t.freg f).sign = (s.freg f).sign ∧
      (t.freg f).packed.toNat = 2 * (s.freg f).packed.toNat % 2 ^ (2 * s.build.N)) ∧
    (∃ t, exec (.fxSub f f) s = .next t ∧ (t.freg f).sign = (s.freg f).sign ∧ (t.freg f).packed.toNat = 0) ∧
    (∃ t, exec (.fxXor f f) s = .next t ∧ (t.freg f).sign = (s.freg f).sign ∧ (t.freg f).packed.toNat = 0) ∧
    (∃ t, exec (.fxAnd f f) s = .next t ∧ (t.freg f).sign = (s.freg f).sign ∧
      (t.freg f).packed.toNat = (s.freg f).packed.toNat) ∧
    (s.build.variant = .n16 → (s.freg f).packed ≠ 0 →
      ∃ t, exec (.fxDiv f f) s = .next t ∧ (t.freg f).sign = (s.freg f).sign ∧
        (t.freg f).packed.toNat = 2 ^ s.build.N)

/-! ## The host's side -/

/-- The fractional part of the string (R137): exactly `n` digits, most significant first, that read back as the number. -/
def Obligations.StringFractionHasNDigits : Prop :=
  ∀ n m : Nat, m < 10 ^ n →
    (HostSide.fixedDigits n m).length = n ∧ (∀ c ∈ HostSide.fixedDigits n m, c.isDigit = true) ∧
    (HostSide.fixedDigits n m).foldl (fun acc c => 10 * acc + (c.toNat - 48)) 0 = m

/-- The six rows of R61: a pseudo-instruction on `fd` is `FX.ENC f15, <decimal>` and then its operator on `fd` and `f15`, and is
not allowed on `f15`. `A` of the first command is the integer part, `B` the digits after the point, cut or padded with zeros on
the right to `N` of them, read as an integer (R60). The form of a decimal on the host's side is the model's choice (assumption
17), and so is `A` modulo `2^W` for an integer part of `2^W` or more, where the spec is silent (assumption 20). -/
def Obligations.PseudoInstructionExpands : Prop :=
  ∀ (b : Build) (fd : Reg) (d : HostSide.Decimal),
    (fd ≠ 15 → ∃ c1 : Command b.W, decode c1.cmd = .ok (.fxEnc 15 d.minus) ∧ c1.a.toNat = d.ip % 2 ^ b.W ∧
      c1.b.toNat =
        Nat.ofDigits 10 ((d.digits.take b.N).map fun x => x.val).reverse * 10 ^ (b.N - d.digits.length) ∧
      ∀ row ∈ [(HostSide.Pseudo.addd, Instr.fxAdd fd 15), (.subd, .fxSub fd 15), (.andd, .fxAnd fd 15),
          (.xord, .fxXor fd 15), (.muld, .fxMul fd 15), (.divd, .fxDiv fd 15)],
        ∃ c2 : Command b.W, HostSide.expand b row.1 fd d = some [.command c1, .command c2] ∧ decode c2.cmd = .ok row.2) ∧
    ∀ p, HostSide.expand b p 15 d = none
end

