-- ==== Sys2Proof/Laws/Decode.lean ====
section
/-! SUPPORT. A command word and its fields (spec/30_encoding.md R53, R55). -/

namespace Sys2Proof

/-- A command word is its six fields put together (R53). -/
theorem fields_append (c : BitVec 32) :
    (fieldsOf c).zero ++ BitVec.ofBool (fieldsOf c).sg ++ (fieldsOf c).sh ++ (fieldsOf c).fs ++ (fieldsOf c).fd ++ (fieldsOf c).opc = c := by
  apply BitVec.eq_of_getLsbD_eq
  intro i hi
  simp only [fieldsOf, BitVec.getLsbD_append, BitVec.getLsbD_extractLsb', BitVec.getLsbD_ofBool]
  interval_cases i <;> simp

/-- A register index keeps its value through its field. -/
@[simp] theorem regOf_regBits (r : Reg) : regOf (regBits r) = r := by revert r; decide

/-- A register field keeps its value through its index. -/
@[simp] theorem regBits_regOf (x : BitVec 4) : regBits (regOf x) = x := by simp [regBits, regOf]

/-- Decoding answers a row's command when the unused fields are zero, and says which of the two checks fails first (R171). -/
theorem decode_cases (c : BitVec 32) :
    (rowOf (fieldsOf c) = none ∧ decode c = .error (.reservedOpcode (fieldsOf c).opc)) ∨
    ∃ t i, rowOf (fieldsOf c) = some (t, i) ∧
      decode c = if t.unusedZero (fieldsOf c) then .ok i else .error (.unusedField t) := by
  unfold decode
  cases h : rowOf (fieldsOf c) with
  | none => exact .inl ⟨rfl, rfl⟩
  | some p => exact .inr ⟨p.1, p.2, rfl, rfl⟩

end Sys2Proof
end

