-- ==== Sys2Proof/Laws/HostSide.lean ====
section
/-! SUPPORT. The assembler's digits after the point, as a number (spec/30_encoding.md R60). -/

namespace Sys2Proof.Machine.HostSide

/-- Reading digits on, most significant first, from a number read so far. -/
theorem foldl_digits (l : List (Fin 10)) : ∀ acc : Nat,
    l.foldl (fun (a : Nat) (x : Fin 10) => 10 * a + x.val) acc =
      acc * 10 ^ l.length + Nat.ofDigits 10 (l.map fun x => x.val).reverse := by
  induction l with
  | nil => simp
  | cons x l ih => intro acc; simp [ih, Nat.ofDigits_append, pow_succ]; ring

/-- The scaled fraction is the digits, cut to `n`, times the power of ten that the zeros on the right stand for. -/
theorem scaled_eq (n : Nat) (d : Decimal) :
    d.scaled n = Nat.ofDigits 10 ((d.digits.take n).map fun x => x.val).reverse * 10 ^ (n - d.digits.length) := by
  rw [Decimal.scaled, List.foldl_append, foldl_digits, foldl_digits]
  simp

/-- The scaled fraction is below `10^n`, so it fits operand word `B` of every build (R5, R127). -/
theorem scaled_lt (n : Nat) (d : Decimal) : d.scaled n < 10 ^ n := by
  have h := Nat.ofDigits_lt_base_pow_length (b := 10) (l := ((d.digits.take n).map fun x => x.val).reverse) (by norm_num)
    (by
      intro x hx
      obtain ⟨y, -, rfl⟩ := List.mem_map.1 (List.mem_reverse.1 hx)
      exact y.isLt)
  have h2 : 10 ^ n = 10 ^ min n d.digits.length * 10 ^ (n - d.digits.length) := by
    rw [← pow_add]; congr 1; omega
  rw [List.length_reverse, List.length_map, List.length_take] at h
  rw [scaled_eq, h2]
  exact Nat.mul_lt_mul_of_pos_right h (by positivity)

end Sys2Proof.Machine.HostSide
end

