-- ==== Sys2Proof/Laws/Kernel.lean ====
section
/-! SUPPORT. What the adder, the subtractor, negation, the magnitude and the multiplier compute: each loop against its result
law (spec/40_addsub.md R70, R72, R74, R78; spec/41_multiply_power.md R90). -/

namespace Sys2Proof.Machine.Kernel

/-- Addition is the sum without carry plus twice the carry bits. -/
theorem nat_add_eq_xor_add_two_mul_and (a b : Nat) : a + b = (a ^^^ b) + 2 * (a &&& b) := by
  induction a using Nat.strongRecOn generalizing b with
  | ind a ih =>
    by_cases h : a = 0
    · subst h; simp
    · have hx : (a ^^^ b) / 2 = a / 2 ^^^ b / 2 := Nat.xor_div_two
      have ha : (a &&& b) / 2 = a / 2 &&& b / 2 := Nat.and_div_two
      have i := ih (a / 2) (by omega) (b / 2)
      have mx : (a ^^^ b) % 2 = (a + b) % 2 := Nat.xor_mod_two_eq
      have ma := @Nat.and_mod_two_eq_one a b
      rw [← hx, ← ha] at i
      omega

/-- One carry step keeps the sum (R70). -/
theorem carry_step {w : Nat} (x y : Word w) : (x ^^^ y) + shl (x &&& y) 1 = x + y := by
  apply BitVec.eq_of_toNat_eq
  have h := nat_add_eq_xor_add_two_mul_and x.toNat y.toNat
  simp only [shl, BitVec.toNat_add, BitVec.toNat_xor, BitVec.toNat_shiftLeft, BitVec.toNat_and, Nat.shiftLeft_eq, pow_one,
    Nat.add_mod_mod]
  rw [h, Nat.mul_comm 2]

/-- One borrow step keeps the difference (R72). -/
theorem borrow_step {w : Nat} (x y : Word w) : (x ^^^ y) - shl (~~~x &&& y) 1 = x - y := by
  have h := carry_step y (x ^^^ y)
  have h1 : y ^^^ (x ^^^ y) = x := by ext i hi; simp
  have h2 : y &&& (x ^^^ y) = ~~~x &&& y := by
    ext i hi; simp; cases x[i] <;> cases y[i] <;> rfl
  rw [h1, h2] at h
  have h3 : x ^^^ y = x + shl (~~~x &&& y) 1 - y := by rw [h, BitVec.add_comm y, BitVec.add_sub_cancel]
  rw [h3]
  apply BitVec.eq_of_toInt_eq
  simp only [BitVec.toInt_sub, BitVec.toInt_add, Int.bmod_sub_bmod]
  congr 1; ring

/-- The carry word of a step has one more trailing zero (R70). -/
theorem shl_and_low {w k : Nat} (z y : Word w) (h : ∀ i, i < w - (k + 1) → y.getLsbD i = false) :
    ∀ i, i < w - k → (shl (z &&& y) 1).getLsbD i = false := by
  intro i hi
  simp only [shl, BitVec.getLsbD_shiftLeft, BitVec.getLsbD_and]
  by_cases h0 : i < 1
  · simp [h0]
  · rw [h (i - 1) (by omega)]; simp

theorem eq_zero_of_low {w : Nat} (y : Word w) (h : ∀ i, i < w - 0 → y.getLsbD i = false) : y = 0#w := by
  apply BitVec.eq_of_getLsbD_eq
  intro i hi
  rw [h i (by omega)]; simp

/-- The carry loop returns the sum as soon as its fuel covers the carry word's trailing zeros (R70). -/
theorem carryLoop_eq {w : Nat} : ∀ (k : Nat) (x y : Word w), (∀ i, i < w - k → y.getLsbD i = false) →
    carryLoop k x y = x + y
  | 0, x, y, h => by rw [eq_zero_of_low y h]; simp [carryLoop]
  | k + 1, x, y, h => by
    rw [carryLoop]
    by_cases hy : y = 0#w
    · simp [hy]
    · rw [if_neg hy, carryLoop_eq k _ _ (shl_and_low x y h), carry_step]

/-- The adder computes the sum modulo `2^W` (R71). -/
theorem add_eq {w : Nat} (a b : Word w) : add a b = a + b := carryLoop_eq w a b (fun i h => by omega)

/-- The borrow loop returns the difference as soon as its fuel covers the borrow word's trailing zeros (R72). -/
theorem borrowLoop_eq {w : Nat} : ∀ (k : Nat) (x y : Word w), (∀ i, i < w - k → y.getLsbD i = false) →
    borrowLoop k x y = x - y
  | 0, x, y, h => by rw [eq_zero_of_low y h]; simp [borrowLoop]
  | k + 1, x, y, h => by
    rw [borrowLoop]
    by_cases hy : y = 0#w
    · simp [hy]
    · rw [if_neg hy, borrowLoop_eq k _ _ (shl_and_low (~~~x) y h), borrow_step]

/-- The subtractor computes the difference modulo `2^W` (R72). -/
theorem sub_eq {w : Nat} (a b : Word w) : sub a b = a - b := borrowLoop_eq w a b (fun i h => by omega)

/-- Complement and add one is two's-complement negation (R74). -/
theorem neg_eq {w : Nat} (a : Word w) : neg a = -a := by rw [neg, add_eq, BitVec.neg_eq_not_add]

theorem inc_eq {w : Nat} (a : Word w) : inc a = a + 1#w := add_eq a 1#w

theorem dec_eq {w : Nat} (a : Word w) : dec a = a - 1#w := sub_eq a 1#w

/-- The magnitude, read unsigned, is the absolute value of every word, `MIN` too (R78). -/
theorem mag_toNat {w : Nat} (x : Word w) : (mag x).toNat = x.toInt.natAbs := by
  rw [mag, neg_eq]
  have hx := x.isLt
  cases hm : x.msb
  · rw [if_neg (by simp), BitVec.toInt_eq_toNat_of_msb hm]; simp
  · rw [if_pos rfl, BitVec.toNat_neg]
    have hw : 0 < x.toNat := by
      rcases Nat.eq_zero_or_pos x.toNat with h | h
      · have : x = 0#w := BitVec.eq_of_toNat_eq (by simpa using h)
        rw [this] at hm; simp at hm
      · exact h
    rw [Nat.mod_eq_of_lt (by omega)]
    have := BitVec.toInt_eq_msb_cond x
    rw [hm] at this
    simp only [if_true] at this
    have hc : ((2 ^ w : Nat) : Int) = (2 : Int) ^ w := by push_cast; rfl
    omega

/-- The shift-and-add loop accumulates the product of multiplicand and multiplier (R90). -/
theorem mulLoop_eq {w : Nat} : ∀ (k : Nat) (acc x y : Word w), y.toNat < 2 ^ k → mulLoop k acc x y = acc + x * y
  | 0, acc, x, y, h => by
    have hy : y = 0#w := BitVec.eq_of_toNat_eq (by simp; omega)
    rw [hy]; simp [mulLoop]
  | k + 1, acc, x, y, h => by
    rw [mulLoop]
    by_cases hy : y = 0#w
    · simp [hy]
    · have hl : (lsr y 1).toNat = y.toNat / 2 := by simp [lsr, Nat.shiftRight_eq_div_pow]
      rw [if_neg hy, mulLoop_eq k _ _ _ (by rw [hl, Nat.div_lt_iff_lt_mul (by decide)]; rw [pow_succ] at h; exact h)]
      have hs : shl x 1 * lsr y 1 + (if y.getLsbD 0 then x else 0#w) = x * y := by
        apply BitVec.eq_of_toNat_eq
        have hb : y.getLsbD 0 = decide (y.toNat % 2 = 1) := by
          rw [Bool.eq_iff_iff]; simp [BitVec.getLsbD, Nat.testBit]
        have e : 2 * x.toNat * (y.toNat / 2) + (if y.toNat % 2 = 1 then x.toNat else 0) = x.toNat * y.toNat := by
          have := Nat.div_add_mod y.toNat 2
          rcases Nat.mod_two_eq_zero_or_one y.toNat with h1 | h1
          · rw [if_neg (by omega)]; nlinarith [this]
          · rw [if_pos h1]; nlinarith [this]
        rw [BitVec.toNat_add, BitVec.toNat_mul, hl, BitVec.toNat_mul, ← e]
        simp only [shl, BitVec.toNat_shiftLeft, Nat.shiftLeft_eq, pow_one, hb, decide_eq_true_eq]
        rw [Nat.mul_comm 2 x.toNat]
        split <;> simp [Nat.add_mod, Nat.mul_mod]
      cases hb : y.getLsbD 0
      · simp only [hb, Bool.false_eq_true, if_false] at hs ⊢
        rw [← hs]; simp
      · simp only [hb, if_true] at hs ⊢
        rw [add_eq, ← hs, BitVec.add_assoc, BitVec.add_comm x]

/-- A word is its magnitude, negated when its sign bit is 1. -/
theorem eq_neg_mag {w : Nat} (x : Word w) : x = if x.msb then -mag x else mag x := by
  rw [mag, neg_eq]; cases x.msb <;> simp

/-- The multiplier computes the product modulo `2^W` (R91). -/
theorem mul_eq {w : Nat} (a b : Word w) : mul a b = a * b := by
  have h : mulLoop w 0#w (mag a) (mag b) = mag a * mag b := by rw [mulLoop_eq w _ _ _ (mag b).isLt]; simp
  have ha := eq_neg_mag a
  have hb := eq_neg_mag b
  rw [mul, h, neg_eq]
  conv_rhs => rw [ha, hb]
  cases a.msb <;> cases b.msb <;> simp

end Sys2Proof.Machine.Kernel
end

