-- ==== Sys2Proof/Laws/State.lean ====
section
/-! SUPPORT. The small lemmas of the state operations: one per field per update, true by `rfl`; reading a register after a
write; what an OK answer and a failure leave. -/

namespace Sys2Proof.Machine

@[simp] theorem store_build (s : State) (d : Reg) (x : FxVal s.build.N s.build.W) (r : Response s.build.W) : (s.store d x r).build = s.build := rfl
@[simp] theorem store_f (s : State) (d : Reg) (x : FxVal s.build.N s.build.W) (r : Response s.build.W) : (s.store d x r).f = s.f.set d.val x d.isLt := rfl
@[simp] theorem store_v (s : State) (d : Reg) (x : FxVal s.build.N s.build.W) (r : Response s.build.W) : (s.store d x r).v = s.v.set d.val true d.isLt := rfl
@[simp] theorem store_opA (s : State) (d : Reg) (x : FxVal s.build.N s.build.W) (r : Response s.build.W) : (s.store d x r).opA = s.opA := rfl
@[simp] theorem store_opB (s : State) (d : Reg) (x : FxVal s.build.N s.build.W) (r : Response s.build.W) : (s.store d x r).opB = s.opB := rfl
@[simp] theorem store_inputs (s : State) (d : Reg) (x : FxVal s.build.N s.build.W) (r : Response s.build.W) : (s.store d x r).inputs = s.inputs := rfl
@[simp] theorem store_responses (s : State) (d : Reg) (x : FxVal s.build.N s.build.W) (r : Response s.build.W) : (s.store d x r).responses = s.responses ++ [r] := rfl
@[simp] theorem store_draws (s : State) (d : Reg) (x : FxVal s.build.N s.build.W) (r : Response s.build.W) : (s.store d x r).draws = s.draws := rfl

@[simp] theorem respond_build (s : State) (r : Response s.build.W) : (s.respond r).build = s.build := rfl
@[simp] theorem respond_f (s : State) (r : Response s.build.W) : (s.respond r).f = s.f := rfl
@[simp] theorem respond_v (s : State) (r : Response s.build.W) : (s.respond r).v = s.v := rfl
@[simp] theorem respond_opA (s : State) (r : Response s.build.W) : (s.respond r).opA = s.opA := rfl
@[simp] theorem respond_opB (s : State) (r : Response s.build.W) : (s.respond r).opB = s.opB := rfl
@[simp] theorem respond_inputs (s : State) (r : Response s.build.W) : (s.respond r).inputs = s.inputs := rfl
@[simp] theorem respond_responses (s : State) (r : Response s.build.W) : (s.respond r).responses = s.responses ++ [r] := rfl
@[simp] theorem respond_draws (s : State) (r : Response s.build.W) : (s.respond r).draws = s.draws := rfl

@[simp] theorem answer_build (s : State) (a b : Word s.build.W) (g : Bool) : (s.answer a b g).build = s.build := rfl
@[simp] theorem answer_f (s : State) (a b : Word s.build.W) (g : Bool) : (s.answer a b g).f = s.f := rfl
@[simp] theorem answer_v (s : State) (a b : Word s.build.W) (g : Bool) : (s.answer a b g).v = s.v := rfl
@[simp] theorem answer_opA (s : State) (a b : Word s.build.W) (g : Bool) : (s.answer a b g).opA = s.opA := rfl
@[simp] theorem answer_opB (s : State) (a b : Word s.build.W) (g : Bool) : (s.answer a b g).opB = s.opB := rfl
@[simp] theorem answer_inputs (s : State) (a b : Word s.build.W) (g : Bool) : (s.answer a b g).inputs = s.inputs := rfl
@[simp] theorem answer_responses (s : State) (a b : Word s.build.W) (g : Bool) : (s.answer a b g).responses = s.responses ++ [okResponse a b g] := rfl
@[simp] theorem answer_draws (s : State) (a b : Word s.build.W) (g : Bool) : (s.answer a b g).draws = s.draws := rfl

@[simp] theorem fail_build (s : State) (st : Status) : (s.fail st).build = s.build := rfl
@[simp] theorem fail_f (s : State) (st : Status) : (s.fail st).f = s.f := rfl
@[simp] theorem fail_v (s : State) (st : Status) : (s.fail st).v = s.v := rfl
@[simp] theorem fail_opA (s : State) (st : Status) : (s.fail st).opA = s.opA := rfl
@[simp] theorem fail_opB (s : State) (st : Status) : (s.fail st).opB = s.opB := rfl
@[simp] theorem fail_inputs (s : State) (st : Status) : (s.fail st).inputs = s.inputs := rfl
@[simp] theorem fail_draws (s : State) (st : Status) : (s.fail st).draws = s.draws + 1 := rfl

@[simp] theorem accept_build (s : State) (c : Command s.build.W) (rest : List (HostInput s.build.W)) : (s.accept c rest).build = s.build := rfl
@[simp] theorem accept_f (s : State) (c : Command s.build.W) (rest : List (HostInput s.build.W)) : (s.accept c rest).f = s.f := rfl
@[simp] theorem accept_v (s : State) (c : Command s.build.W) (rest : List (HostInput s.build.W)) : (s.accept c rest).v = s.v := rfl
@[simp] theorem accept_opA (s : State) (c : Command s.build.W) (rest : List (HostInput s.build.W)) : (s.accept c rest).opA = c.a := rfl
@[simp] theorem accept_opB (s : State) (c : Command s.build.W) (rest : List (HostInput s.build.W)) : (s.accept c rest).opB = c.b := rfl
@[simp] theorem accept_inputs (s : State) (c : Command s.build.W) (rest : List (HostInput s.build.W)) : (s.accept c rest).inputs = rest := rfl
@[simp] theorem accept_responses (s : State) (c : Command s.build.W) (rest : List (HostInput s.build.W)) : (s.accept c rest).responses = s.responses := rfl
@[simp] theorem accept_draws (s : State) (c : Command s.build.W) (rest : List (HostInput s.build.W)) : (s.accept c rest).draws = s.draws := rfl

@[simp] theorem resetWith_build (b : Build) (l : List (HostInput b.W)) (k : Nat) : (State.resetWith b l k).build = b := rfl
@[simp] theorem resetWith_v (b : Build) (l : List (HostInput b.W)) (k : Nat) : (State.resetWith b l k).v = Vector.replicate NF false := rfl
@[simp] theorem resetWith_inputs (b : Build) (l : List (HostInput b.W)) (k : Nat) : (State.resetWith b l k).inputs = l := rfl
@[simp] theorem resetWith_responses (b : Build) (l : List (HostInput b.W)) (k : Nat) : (State.resetWith b l k).responses = [] := rfl
@[simp] theorem resetWith_draws (b : Build) (l : List (HostInput b.W)) (k : Nat) : (State.resetWith b l k).draws = k := rfl

@[simp] theorem withFetchWord_build (s : State) (nbits w : Nat) : (s.withFetchWord nbits w).build = s.build := rfl
@[simp] theorem withFetchWord_f (s : State) (nbits w : Nat) : (s.withFetchWord nbits w).f = s.f := rfl
@[simp] theorem withFetchWord_v (s : State) (nbits w : Nat) : (s.withFetchWord nbits w).v = s.v := rfl
@[simp] theorem withFetchWord_opA (s : State) (nbits w : Nat) : (s.withFetchWord nbits w).opA = s.opA := rfl
@[simp] theorem withFetchWord_opB (s : State) (nbits w : Nat) : (s.withFetchWord nbits w).opB = s.opB := rfl
@[simp] theorem withFetchWord_inputs (s : State) (nbits w : Nat) : (s.withFetchWord nbits w).inputs = .command (commandOfBits s.build.W nbits w) :: s.inputs := rfl
@[simp] theorem withFetchWord_responses (s : State) (nbits w : Nat) : (s.withFetchWord nbits w).responses = s.responses := rfl
@[simp] theorem withFetchWord_draws (s : State) (nbits w : Nat) : (s.withFetchWord nbits w).draws = s.draws := rfl

@[simp] theorem okResponse_status {w : Nat} (a b : Word w) (g : Bool) : (okResponse a b g).status = .ok := rfl
@[simp] theorem okResponse_result {w : Nat} (a b : Word w) (g : Bool) : (okResponse a b g).result = a := rfl
@[simp] theorem okResponse_result2 {w : Nat} (a b : Word w) (g : Bool) : (okResponse a b g).result2 = b := rfl
@[simp] theorem okResponse_rsign {w : Nat} (a b : Word w) (g : Bool) : (okResponse a b g).rsign = g := rfl

@[simp] theorem refuse_eq_fail (s : State) (why : RefuseReason) : s.refuse why = s.fail .refused := rfl

@[simp] theorem raiseDivideByZero_eq_fail (s : State) : s.raiseDivideByZero = s.fail .divideByZero := rfl

@[simp] theorem freg_respond (s : State) (r : Response s.build.W) (j : Reg) : (s.respond r).freg j = s.freg j := rfl

@[simp] theorem valid_respond (s : State) (r : Response s.build.W) (j : Reg) : (s.respond r).valid j = s.valid j := rfl

@[simp] theorem freg_answer (s : State) (a b : Word s.build.W) (g : Bool) (j : Reg) : (s.answer a b g).freg j = s.freg j := rfl

@[simp] theorem valid_answer (s : State) (a b : Word s.build.W) (g : Bool) (j : Reg) :
    (s.answer a b g).valid j = s.valid j := rfl

@[simp] theorem freg_fail (s : State) (st : Status) (j : Reg) : (s.fail st).freg j = s.freg j := rfl

@[simp] theorem valid_fail (s : State) (st : Status) (j : Reg) : (s.fail st).valid j = s.valid j := rfl

@[simp] theorem freg_accept (s : State) (c : Command s.build.W) (rest : List (HostInput s.build.W)) (j : Reg) :
    (s.accept c rest).freg j = s.freg j := rfl

@[simp] theorem valid_accept (s : State) (c : Command s.build.W) (rest : List (HostInput s.build.W)) (j : Reg) :
    (s.accept c rest).valid j = s.valid j := rfl

/-- Reading a register after a write (R9, R29): the written value, or the old one of any other register. -/
theorem freg_store (s : State) (d j : Reg) (x : FxVal s.build.N s.build.W) (r : Response s.build.W) :
    (s.store d x r).freg j = if j = d then x else s.freg j := by
  simp only [State.freg, State.store, Vector.get_eq_getElem]
  by_cases h : j = d
  · subst h; simp
  · have h' : d.val ≠ j.val := fun e => h (Fin.ext e.symm)
    simp [h, Vector.getElem_set_ne _ _ h']

@[simp] theorem freg_store_self (s : State) (d : Reg) (x : FxVal s.build.N s.build.W) (r : Response s.build.W) :
    (s.store d x r).freg d = x := by
  simp [freg_store]

@[simp] theorem freg_store_ne (s : State) (d j : Reg) (x : FxVal s.build.N s.build.W) (r : Response s.build.W) (h : j ≠ d) :
    (s.store d x r).freg j = s.freg j := by
  simp [freg_store, h]

/-- A write makes its register valid and leaves every other valid bit (R27). -/
@[simp] theorem valid_store (s : State) (d j : Reg) (x : FxVal s.build.N s.build.W) (r : Response s.build.W) :
    (s.store d x r).valid j = (decide (j = d) || s.valid j) := by
  simp only [State.valid, State.store, Vector.get_eq_getElem]
  by_cases h : j = d
  · subst h; simp
  · have h' : d.val ≠ j.val := fun e => h (Fin.ext e.symm)
    simp [h, Vector.getElem_set_ne _ _ h']

@[simp] theorem valid_resetWith (b : Build) (l : List (HostInput b.W)) (k : Nat) (j : Reg) :
    (State.resetWith b l k).valid j = false := by
  simp [State.valid, State.resetWith, Vector.get_eq_getElem]

end Sys2Proof.Machine
end

