-- ==== Sys2Proof/Laws/Ops.lean ====
section
/-! SUPPORT. What each shared operation can do, said once: the shapes of the commands (spec/45_fx_operators.md R145;
spec/60_exceptions.md R165), the signed view (spec/44_fx_codec.md R131), the idle and input cases of a step. -/

namespace Sys2Proof.Machine

/-- A kernel command fails with DivideByZero or answers its value; it never touches a register (R20). -/
theorem answerKernel_cases {s t : State} {r : Option (Word s.build.W)} (h : answerKernel s r = .next t) :
    (r = none ∧ t = s.fail .divideByZero) ∨ ∃ x, r = some x ∧ t = s.answer x := by
  cases r with
  | none => exact .inl ⟨rfl, (by simpa [answerKernel] using h.symm)⟩
  | some x => exact .inr ⟨x, rfl, (by simpa [answerKernel] using h.symm)⟩

/-- A two-register operator is refused for an invalid register, fails with DivideByZero, or assigns its value (R145). -/
theorem fxBinary_cases {fd fs : Reg} {s t : State} {f : Word s.build.W → Word s.build.W → Option (Word s.build.W)}
    (h : fxBinary fd fs s f = .next t) :
    ((s.valid fd = false ∨ s.valid fs = false) ∧ t = s.fail .refused) ∨
    (s.valid fd = true ∧ s.valid fs = true ∧ f (s.view fd) (s.view fs) = none ∧ t = s.fail .divideByZero) ∨
    ∃ v, s.valid fd = true ∧ s.valid fs = true ∧ f (s.view fd) (s.view fs) = some v ∧ t = s.assignReceiver fd v := by
  unfold fxBinary at h
  cases h1 : s.valid fd
  · exact .inl ⟨.inl rfl, (by simpa [h1] using h.symm)⟩
  · cases h2 : s.valid fs
    · exact .inl ⟨.inr rfl, (by simpa [h1, h2] using h.symm)⟩
    · cases h3 : f (s.view fd) (s.view fs) with
      | none => exact .inr (.inl ⟨rfl, rfl, rfl, (by simpa [h1, h2, h3] using h.symm)⟩)
      | some v => exact .inr (.inr ⟨v, rfl, rfl, rfl, (by simpa [h1, h2, h3] using h.symm)⟩)

/-- A two-register operator on valid registers assigns the value its function gives. -/
theorem fxBinary_some {fd fs : Reg} {s : State} {f : Word s.build.W → Word s.build.W → Option (Word s.build.W)}
    {v : Word s.build.W} (h1 : s.valid fd = true) (h2 : s.valid fs = true) (h3 : f (s.view fd) (s.view fs) = some v) :
    fxBinary fd fs s f = .next (s.assignReceiver fd v) := by
  simp [fxBinary, h1, h2, h3]

/-- A two-register operator on an invalid register is refused. -/
theorem fxBinary_refused {fd fs : Reg} {s : State} {f : Word s.build.W → Word s.build.W → Option (Word s.build.W)}
    (h : s.valid fd = false ∨ s.valid fs = false) : fxBinary fd fs s f = .next (s.fail .refused) := by
  unfold fxBinary
  rcases h with h | h
  · simp [h]
  · cases h1 : s.valid fd <;> simp [h]

/-- A shift is refused for its amount or its register, or assigns its value (R145, R171). -/
theorem fxShift_cases {fd : Reg} {sh : BitVec 8} {s t : State} {f : Word s.build.W → Nat → Word s.build.W}
    (h : fxShift fd sh s f = .next t) :
    ((s.shiftLegal sh = false ∨ s.valid fd = false) ∧ t = s.fail .refused) ∨
    (s.shiftLegal sh = true ∧ s.valid fd = true ∧ t = s.assignReceiver fd (f (s.view fd) sh.toNat)) := by
  unfold fxShift at h
  cases h1 : s.shiftLegal sh
  · exact .inl ⟨.inl rfl, (by simpa [h1] using h.symm)⟩
  · cases h2 : s.valid fd
    · exact .inl ⟨.inr rfl, (by simpa [h1, h2] using h.symm)⟩
    · exact .inr ⟨rfl, rfl, (by simpa [h1, h2] using h.symm)⟩

/-- A reading command is refused for an invalid register, or answers and changes nothing else (R43). -/
theorem fxRead_cases {fs : Reg} {s t : State} {r : Response s.build.W} (h : fxRead fs s r = .next t) :
    (s.valid fs = false ∧ t = s.fail .refused) ∨ (s.valid fs = true ∧ t = s.respond r) := by
  unfold fxRead at h
  cases h1 : s.valid fs
  · exact .inl ⟨rfl, (by simpa [h1] using h.symm)⟩
  · exact .inr ⟨rfl, (by simpa [h1] using h.symm)⟩

/-- FX.DIV at `N = 32` is refused, fails with DivideByZero, or stores the open value (R156). -/
theorem fxDivWide_cases {fd fs : Reg} {s t : State} (h : fxDivWide fd fs s = .next t) :
    ((s.valid fd = false ∨ s.valid fs = false) ∧ t = s.fail .refused) ∨
    (s.valid fd = true ∧ s.valid fs = true ∧ (s.freg fs).packed = 0 ∧ t = s.fail .divideByZero) ∨
    (s.valid fd = true ∧ s.valid fs = true ∧ (s.freg fs).packed ≠ 0 ∧
      t = s.storeReceiver fd (Config.hpdiv32 s.build.N s.build.W (s.freg fd) (s.freg fs))) := by
  unfold fxDivWide at h
  cases h1 : s.valid fd
  · exact .inl ⟨.inl rfl, (by simpa [h1] using h.symm)⟩
  · cases h2 : s.valid fs
    · exact .inl ⟨.inr rfl, (by simpa [h1, h2] using h.symm)⟩
    · by_cases h3 : (s.freg fs).packed = 0
      · simp only [h1, h2, Bool.true_eq_false, if_false, if_pos h3, Host.Outcome.next.injEq] at h
        exact .inr (.inl ⟨rfl, rfl, h3, h.symm⟩)
      · simp only [h1, h2, Bool.true_eq_false, if_false, if_neg h3, Host.Outcome.next.injEq] at h
        exact .inr (.inr ⟨rfl, rfl, h3, h.symm⟩)

/-- The signed view is the packed integer, negated when the sign is 1 (R131). -/
theorem rep_eq {n w : Nat} (x : FxVal n w) : Fx.rep x = if x.sign then -zext w x.packed else zext w x.packed := by
  rw [Fx.rep, Kernel.neg_eq]

/-- The fractional digits are the fractional field times `5^N` (R137). -/
theorem fracDigits_eq {n : Nat} (w : Nat) (p : BitVec (2 * n)) :
    Fx.fracDigits w p = zext w (Fx.fracField p) * BitVec.ofNat w (5 ^ n) := by
  rw [Fx.fracDigits, Kernel.mul_eq]

@[simp] theorem assign_sign {n w : Nat} (old : FxVal n w) (v : Word w) : (Fx.assign old v).sign = (old.sign || v.msb) := rfl

@[simp] theorem assign_packed {n w : Nat} (old : FxVal n w) (v : Word w) :
    (Fx.assign old v).packed = (Kernel.mag v).setWidth (2 * n) := rfl

@[simp] theorem assign_mi {n w : Nat} (old : FxVal n w) (v : Word w) :
    (Fx.assign old v).mi = zext w (Fx.intField ((Kernel.mag v).setWidth (2 * n))) := rfl

@[simp] theorem assign_mf {n w : Nat} (old : FxVal n w) (v : Word w) :
    (Fx.assign old v).mf = Fx.fracDigits w ((Kernel.mag v).setWidth (2 * n)) := rfl

/-- A receiver holds the value it was given (R126, R145). -/
@[simp] theorem freg_storeReceiver_self (s : State) (d : Reg) (x : FxVal s.build.N s.build.W) :
    (s.storeReceiver d x).freg d = x := freg_store_self s d x _

/-- A receiver holds the assigned value (R133, R145). -/
@[simp] theorem freg_assignReceiver_self (s : State) (d : Reg) (v : Word s.build.W) :
    (s.assignReceiver d v).freg d = Fx.assign (s.freg d) v := freg_store_self s d _ _

/-- A step takes one input: a command, a reset or a broken handshake; with none it leaves the state as it is. -/
theorem step_cases {s t : State} (h : step s = .next t) :
    (s.inputs = [] ∧ t = s) ∨
    (∃ o rest, s.inputs = .reset o :: rest ∧ t = State.resetWith s.build rest s.draws) ∨
    (∃ c rest e, s.inputs = .command c :: rest ∧ decode c.cmd = .error e ∧ t = (s.accept c rest).fail .refused) ∨
    ∃ c rest i, s.inputs = .command c :: rest ∧ decode c.cmd = .ok i ∧ exec i (s.accept c rest) = .next t := by
  unfold step at h
  split at h
  · rename_i h0; exact .inl ⟨h0, (by simpa using h.symm)⟩
  · simp at h
  · rename_i o rest h0; exact .inr (.inl ⟨o, rest, h0, (by simpa [State.afterReset] using h.symm)⟩)
  · rename_i c rest h0
    split at h
    · rename_i e he; exact .inr (.inr (.inl ⟨c, rest, e, h0, he, (by simpa using h.symm)⟩))
    · rename_i i hi; exact .inr (.inr (.inr ⟨c, rest, i, h0, hi, h⟩))

end Sys2Proof.Machine
end

