-- ==== Sys2Proof/Laws/PerInstr.lean ====
section
/-! SUPPORT. One lemma per command: the word the encoder writes matches the mask and the match value of the command's row
(spec/30_encoding.md R54). -/

namespace Sys2Proof.Laws.EncodeMask

-- One lemma at a time: many at once start more threads than the check's memory limit allows.
set_option Elab.async false

/-- The command word of `i` spells a command of its row. -/
def Statement (i : Instr) : Prop := encode i &&& i.format.mask = i.opcode.setWidth 32

theorem add : Statement .add := rfl
theorem sub : Statement .sub := rfl
theorem mul : Statement .mul := rfl
theorem div : Statement .div := rfl
theorem mod : Statement .mod := rfl
theorem gcd : Statement .gcd := rfl
theorem pow : Statement .pow := rfl
theorem neg : Statement .neg := rfl
theorem inc : Statement .inc := rfl
theorem dec : Statement .dec := rfl
theorem fxEnc (fd : Reg) (sg : Bool) : Statement (.fxEnc fd sg) := by revert fd sg; unfold Statement; decide +kernel
theorem fxCopy (fd fs : Reg) : Statement (.fxCopy fd fs) := by revert fd fs; unfold Statement; decide +kernel
theorem fxGetrep (fs : Reg) : Statement (.fxGetrep fs) := by revert fs; unfold Statement; decide +kernel
theorem fxSetrep (fd : Reg) : Statement (.fxSetrep fd) := by revert fd; unfold Statement; decide +kernel
theorem fxGetfld (fs : Reg) : Statement (.fxGetfld fs) := by revert fs; unfold Statement; decide +kernel
theorem fxStr (fs : Reg) : Statement (.fxStr fs) := by revert fs; unfold Statement; decide +kernel
theorem fxGetmag (fs : Reg) : Statement (.fxGetmag fs) := by revert fs; unfold Statement; decide +kernel
theorem fxAdd (fd fs : Reg) : Statement (.fxAdd fd fs) := by revert fd fs; unfold Statement; decide +kernel
theorem fxSub (fd fs : Reg) : Statement (.fxSub fd fs) := by revert fd fs; unfold Statement; decide +kernel
theorem fxMul (fd fs : Reg) : Statement (.fxMul fd fs) := by revert fd fs; unfold Statement; decide +kernel
theorem fxDiv (fd fs : Reg) : Statement (.fxDiv fd fs) := by revert fd fs; unfold Statement; decide +kernel
theorem fxAnd (fd fs : Reg) : Statement (.fxAnd fd fs) := by revert fd fs; unfold Statement; decide +kernel
theorem fxXor (fd fs : Reg) : Statement (.fxXor fd fs) := by revert fd fs; unfold Statement; decide +kernel
theorem fxShl (fd : Reg) (sh : BitVec 8) : Statement (.fxShl fd sh) := by revert fd sh; unfold Statement; decide +kernel
theorem fxShr (fd : Reg) (sh : BitVec 8) : Statement (.fxShr fd sh) := by revert fd sh; unfold Statement; decide +kernel

end Sys2Proof.Laws.EncodeMask
end

