-- ==== Sys2Proof/Tests/Slice0.lean ====
section
/-! SUPPORT. The author's tests: the well-formedness smoke test, a hand-written word for every command, one or two single
steps for each (the values are the examples of spec/40_addsub.md to spec/45_fx_operators.md, spec/10_state.md and
spec/60_exceptions.md), and, for each statement with hypotheses, a concrete state and operands that meet them. -/

namespace Sys2Proof.Tests

-- One test at a time: many at once start more threads than the check's memory limit allows.
set_option Elab.async false

open Sys2Proof Sys2Proof.Machine

/-! ## Helpers -/

/-- The reset state of the default build with operand words. -/
def ports (a b : Word 64) : State := { State.reset with opA := a, opB := b }

/-- The default build with registers 0 and 1 constructed. -/
def regs (x y : FxVal 16 64) : State := (State.reset.store 0 x (okResponse 0 0 false)).store 1 y (okResponse 0 0 false)

/-- The wide build with registers 0 and 1 constructed. -/
def wideRegs (x y : FxVal 32 128) : State :=
  ((State.resetOf Build.default32).store 0 x (okResponse 0 0 false)).store 1 y (okResponse 0 0 false)

/-- The default build with what the host will do. -/
def hosted (l : List (HostInput 64)) : State := State.resetWith Build.default16 l 0

/-- One command word with operand words 5 and 3. -/
def word (c : BitVec 32) : HostInput 64 := .command ⟨c, 5, 3⟩

/-- The value fields of the last response, when its status is OK. -/
def okOf : Host.Outcome State Fault Refusal → Option (Nat × Nat × Bool)
  | .next t => t.responses.getLast?.bind fun r => if r.status = .ok then some (r.result.toNat, r.result2.toNat, r.rsign) else none
  | _ => none

/-- The status of the last response. -/
def statusOf : Host.Outcome State Fault Refusal → Option Status
  | .next t => t.responses.getLast?.map Response.status
  | _ => none

/-- The four fields of a register after a step. -/
def fieldsAfter (j : Reg) : Host.Outcome State Fault Refusal → Option (Bool × Nat × Nat × Nat)
  | .next t => some ((t.freg j).sign, (t.freg j).packed.toNat, (t.freg j).mi.toNat, (t.freg j).mf.toNat)
  | _ => none

/-- 15.24, 1.5, 2.25, -1.0, -0.2, 0.5 and minus zero as FX.ENC and the setter store them (R126, R133). -/
def v15_24 : FxVal 16 64 := ⟨false, 998768, 15, 2400000000000000⟩
def v1_5 : FxVal 16 64 := ⟨false, 0x18000, 1, 5000000000000000⟩
def v2_25 : FxVal 16 64 := ⟨false, 0x24000, 2, 2500000000000000⟩
def m1_0 : FxVal 16 64 := ⟨true, 0x10000, 1, 0⟩
def m0_2 : FxVal 16 64 := ⟨true, 13107, 0, 2000000000000000⟩
def v0_5 : FxVal 16 64 := ⟨false, 0x8000, 0, 5000000000000000⟩
def m0 : FxVal 16 64 := ⟨true, 0, 0, 0⟩

/-! ## Well-formedness: the ill-formed terms are refused, the greatest legal amount is not (R59) -/

theorem test_wf_shl_64 : (Instr.fxShl 0 64#8).wellFormed Build.default16 = false := by decide
theorem test_wf_shr_64 : (Instr.fxShr 0 64#8).wellFormed Build.default16 = false := by decide
theorem test_wf_shl_63 : (Instr.fxShl 0 63#8).wellFormed Build.default16 = true := by decide
theorem test_wf_shr_127_wide : (Instr.fxShr 0 127#8).wellFormed Build.default32 = true := by decide
theorem test_ill_formed_is_refused : statusOf (exec (.fxShl 0 64#8) (regs v1_5 v1_5)) = some .refused := by decide +kernel

/-! ## Decoding: words written out from R53 and R56 -/

theorem test_decode_add : decode 0x00000001#32 = .ok .add := by decide
theorem test_decode_sub : decode 0x00000002#32 = .ok .sub := by decide
theorem test_decode_mul : decode 0x00000003#32 = .ok .mul := by decide
theorem test_decode_div : decode 0x00000004#32 = .ok .div := by decide
theorem test_decode_mod : decode 0x00000005#32 = .ok .mod := by decide
theorem test_decode_gcd : decode 0x00000006#32 = .ok .gcd := by decide
theorem test_decode_pow : decode 0x00000007#32 = .ok .pow := by decide
theorem test_decode_neg : decode 0x00000008#32 = .ok .neg := by decide
theorem test_decode_inc : decode 0x00000009#32 = .ok .inc := by decide
theorem test_decode_dec : decode 0x0000000A#32 = .ok .dec := by decide
theorem test_decode_enc : decode 0x01000F10#32 = .ok (.fxEnc 15 true) := by decide
theorem test_decode_copy : decode 0x00005A11#32 = .ok (.fxCopy 10 5) := by decide
theorem test_decode_getrep : decode 0x00002012#32 = .ok (.fxGetrep 2) := by decide
theorem test_decode_setrep : decode 0x00000313#32 = .ok (.fxSetrep 3) := by decide
theorem test_decode_getfld : decode 0x00009014#32 = .ok (.fxGetfld 9) := by decide
theorem test_decode_str : decode 0x00001015#32 = .ok (.fxStr 1) := by decide
theorem test_decode_getmag : decode 0x0000E016#32 = .ok (.fxGetmag 14) := by decide
theorem test_decode_fxadd : decode 0x0000F220#32 = .ok (.fxAdd 2 15) := by decide
theorem test_decode_fxsub : decode 0x00000121#32 = .ok (.fxSub 1 0) := by decide
theorem test_decode_fxmul : decode 0x00008722#32 = .ok (.fxMul 7 8) := by decide
theorem test_decode_fxdiv : decode 0x00006423#32 = .ok (.fxDiv 4 6) := by decide
theorem test_decode_fxand : decode 0x00003C24#32 = .ok (.fxAnd 12 3) := by decide
theorem test_decode_fxxor : decode 0x00005525#32 = .ok (.fxXor 5 5) := by decide
theorem test_decode_shl : decode 0x00400126#32 = .ok (.fxShl 1 64#8) := by decide
theorem test_decode_shr : decode 0x00030027#32 = .ok (.fxShr 0 3#8) := by decide

/-- The ends of the reserved opcode ranges (R57). -/
theorem test_decode_reserved :
    ([0x00, 0x0B, 0x0F, 0x17, 0x1F, 0x28, 0xFF] : List (BitVec 32)).all (fun c => (decode c).toOption.isNone) = true := by
  decide

/-- One nonzero bit in a field the format does not use, for each format, and in the reserved field (R58). -/
theorem test_decode_unused :
    ([0x02000001, 0x80000001, 0x00000108, 0x00001110, 0x00010011, 0x01000220, 0x00000112, 0x00001026, 0x01000027,
      0x00010013] : List (BitVec 32)).all (fun c => (decode c).toOption.isNone) = true := by decide

theorem test_decode_table_word : decodeTableWord 32 0x0000F220 = some (.fxAdd 2 15) := by decide
theorem test_fetch_word : okOf (step (State.reset.withFetchWord 32 0x00000009)) = some (1, 0, false) := by decide +kernel

/-! ## The kernel -/

theorem test_add_opposite : okOf (exec .add (ports (-15) 15)) = some (0, 0, false) := by decide +kernel
theorem test_add_wraps : okOf (exec .add (ports (maxWord 64) 1)) = some (2 ^ 63, 0, false) := by decide +kernel
theorem test_sub : okOf (exec .sub (ports 3 5)) = some (0xFFFFFFFFFFFFFFFE, 0, false) := by decide +kernel
theorem test_sub_wraps : okOf (exec .sub (ports 0 (minWord 64))) = some (2 ^ 63, 0, false) := by decide +kernel
theorem test_mul : okOf (exec .mul (ports (-6) 7)) = some (0xFFFFFFFFFFFFFFD6, 0, false) := by decide +kernel
theorem test_mul_min : okOf (exec .mul (ports (minWord 64) (-1))) = some (2 ^ 63, 0, false) := by decide +kernel
theorem test_div_floors : okOf (exec .div (ports (-7) 2)) = some (0xFFFFFFFFFFFFFFFC, 0, false) := by decide +kernel
theorem test_div_zero_by_zero : statusOf (exec .div (ports 0 0)) = some .divideByZero := by decide +kernel
theorem test_mod_sign : okOf (exec .mod (ports 7 (-2))) = some (0xFFFFFFFFFFFFFFFF, 0, false) := by decide +kernel
theorem test_mod_by_zero : statusOf (exec .mod (ports 5 0)) = some .divideByZero := by decide +kernel
theorem test_gcd : okOf (exec .gcd (ports 48 (-18))) = some (6, 0, false) := by decide +kernel
theorem test_gcd_min : okOf (exec .gcd (ports 0 (minWord 64))) = some (2 ^ 63, 0, false) := by decide +kernel
theorem test_pow : okOf (exec .pow (ports 2 10)) = some (1024, 0, false) := by decide +kernel
theorem test_pow_one_negative : okOf (exec .pow (ports 1 (-3))) = some (1, 0, false) := by decide +kernel
theorem test_neg : okOf (exec .neg (ports 5 9)) = some (0xFFFFFFFFFFFFFFFB, 0, false) := by decide +kernel
theorem test_neg_min : okOf (exec .neg (ports (minWord 64) 0)) = some (2 ^ 63, 0, false) := by decide +kernel
theorem test_inc_minus_one : okOf (exec .inc (ports (-1) 9)) = some (0, 0, false) := by decide +kernel
theorem test_dec_zero : okOf (exec .dec (ports 0 9)) = some (0xFFFFFFFFFFFFFFFF, 0, false) := by decide +kernel

/-! ## The codec -/

theorem test_enc : fieldsAfter 3 (exec (.fxEnc 3 false) (ports 15 2400000000000000)) =
    some (false, 998768, 15, 2400000000000000) := by decide +kernel
/-- 15.24 at `N = 32`: `15 * 2^32 + floor(0.24 * 2^32)`, by hand from R129. -/
theorem test_enc_wide : fieldsAfter 0 (exec (.fxEnc 0 false)
    { State.resetOf Build.default32 with opA := 15#128, opB := 24000000000000000000000000000000#128 }) =
    some (false, 65455301591, 15, 24000000000000000000000000000000) := by decide +kernel
theorem test_copy : fieldsAfter 1 (exec (.fxCopy 1 0) (regs v15_24 m1_0)) = some (false, 998768, 15, 2400000000000000) := by
  decide +kernel
theorem test_copy_unwritten : statusOf (exec (.fxCopy 1 2) (regs v15_24 m1_0)) = some .refused := by decide +kernel
theorem test_getrep : okOf (exec (.fxGetrep 1) (regs v1_5 m0_2)) = some (0xFFFFFFFFFFFFCCCD, 0, true) := by decide +kernel
theorem test_setrep : fieldsAfter 0 (exec (.fxSetrep 0) { regs v15_24 m0 with opA := -65536#64 }) =
    some (true, 65536, 1, 0) := by decide +kernel
theorem test_setrep_sign_sticks : okOf (exec (.fxSetrep 1) { regs v1_5 m1_0 with opA := 65536#64 }) =
    some (0xFFFFFFFFFFFF0000, 0, true) := by decide +kernel
theorem test_getfld : okOf (exec (.fxGetfld 1) (regs v1_5 m0_2)) = some (13107, 0, true) := by decide +kernel
theorem test_str : okOf (exec (.fxStr 0) (regs v15_24 m0)) = some (15, 2399902343750000, false) := by decide +kernel
theorem test_getmag : okOf (exec (.fxGetmag 0) (regs v15_24 m0)) = some (15, 2400000000000000, false) := by decide +kernel

/-! ## The operators -/

theorem test_fxadd : okOf (exec (.fxAdd 0 1) (regs v1_5 v2_25)) = some (0x3C000, 0, false) := by decide +kernel
theorem test_fxadd_sticky : fieldsAfter 0 (exec (.fxAdd 0 1) (regs m0_2 v0_5)) =
    some (true, 19661, 0, 3000030517578125) := by decide +kernel
theorem test_fxsub : okOf (exec (.fxSub 0 1) (regs v1_5 v2_25)) = some (0xFFFFFFFFFFFF4000, 0, true) := by decide +kernel
theorem test_fxmul : okOf (exec (.fxMul 0 1) (regs v1_5 v2_25)) = some (0x36000, 0, false) := by decide +kernel
theorem test_fxmul_rounds_up : fieldsAfter 0 (exec (.fxMul 0 1)
    (regs ⟨true, 6553, 0, 1000000000000000⟩ ⟨false, 6553, 0, 1000000000000000⟩)) = some (true, 656, 0, 100097656250000) := by
  decide +kernel
theorem test_fxdiv : okOf (exec (.fxDiv 0 1) (regs ⟨false, 491520, 7, 0⟩ ⟨false, 163840, 2, 0⟩)) =
    some (0x30000, 0, false) := by decide +kernel
theorem test_fxdiv_by_minus_zero : statusOf (exec (.fxDiv 0 1) (regs v1_5 m0)) = some .divideByZero := by decide +kernel
theorem test_fxand : okOf (exec (.fxAnd 0 1) (regs v1_5 m1_0)) = some (0x10000, 0, false) := by decide +kernel
theorem test_fxxor : okOf (exec (.fxXor 0 1) (regs v1_5 m1_0)) = some (2 ^ 64 - 98304, 0, true) := by decide +kernel
theorem test_shl : okOf (exec (.fxShl 0 3#8) (regs v15_24 m0)) = some (0x79EB80, 0, false) := by decide +kernel
theorem test_shl_minus_zero : fieldsAfter 0 (exec (.fxShl 0 44#8) (regs v15_24 m0)) = some (true, 0, 0, 0) := by
  decide +kernel
theorem test_shr : okOf (exec (.fxShr 0 3#8) (regs v15_24 m0)) = some (0x1E7AE, 0, false) := by decide +kernel
theorem test_shr_rounds_up : fieldsAfter 1 (exec (.fxShr 1 1#8) (regs v1_5 m0_2)) =
    some (true, 6554, 0, 1000061035156250) := by decide +kernel

/-! ## The host's side (R60, R137) -/

theorem test_scaled_cuts : (HostSide.Decimal.mk true 0 (List.replicate 17 9)).scaled 16 = 9999999999999999 := by decide
theorem test_scaled_pads : (HostSide.Decimal.mk false 15 [2, 4]).scaled 16 = 2400000000000000 := by decide
theorem test_string : HostSide.renderString 16 (okResponse 15#64 2399902343750000#64 false) =
    ['1', '5', '.', '2', '3', '9', '9', '9', '0', '2', '3', '4', '3', '7', '5', '0', '0', '0', '0'] := by decide +kernel

/-! ## Witnesses: states and operands that meet the hypotheses of the statements -/

theorem witness_encode_inverts_decode : decode 0x00FF0F26#32 = .ok (.fxShl 15 255#8) := by decide

theorem witness_mask_and_match :
    (0x0000FF20#32 &&& (Instr.fxAdd 0 0).format.mask = (Instr.fxAdd 0 0).opcode.setWidth 32) ∧
    (0xFFFFFF20#32 &&& (Instr.fxAdd 0 0).format.mask ≠ (Instr.fxAdd 0 0).opcode.setWidth 32) := by decide

/-- The word of zeros and the first opcode past the map: no command has their opcode. -/
theorem witness_reserved_opcode :
    (hosted [word 0]).inputs = [word 0] ∧ (hosted [word 0x28]).inputs = [word 0x28] ∧
    ∀ i : Instr, (0#32).extractLsb' 0 8 ≠ i.opcode ∧ (0x28#32).extractLsb' 0 8 ≠ i.opcode := by
  refine ⟨rfl, rfl, fun i => ?_⟩
  cases i <;> simp [Instr.opcode]

theorem witness_unused_field :
    (hosted [word 0x02000001]).inputs = [word 0x02000001] ∧
    (0x02000001#32).extractLsb' 0 8 = Instr.add.opcode ∧
    0x02000001#32 &&& Instr.add.format.mask ≠ Instr.add.opcode.setWidth 32 := ⟨rfl, by decide⟩

theorem witness_step_runs : (hosted [word 0x0000F220, word 1]).inputs = [word 0x0000F220, word 1] ∧
    decode 0x0000F220#32 = .ok (.fxAdd 2 15) := ⟨rfl, by decide⟩

theorem witness_idle_reset_breach :
    State.reset.inputs = [] ∧ (hosted [.reset (some ⟨1, 5, 3⟩), word 1]).inputs = [.reset (some ⟨1, 5, 3⟩), word 1] ∧
    (hosted [.handshakeBreach]).inputs = [.handshakeBreach] := ⟨rfl, rfl, rfl⟩

theorem witness_build_never_changes : step State.reset = .next State.reset ∧
    ∃ t, step (hosted [word 1]) = .next t ∧ t.responses.length = 1 := ⟨rfl, _, rfl, by decide +kernel⟩

/-- One case of each clause: a malformed word, the least refused shift amount, FX.ENC operands just out of range, an invalid
register. -/
theorem witness_refused :
    (∀ i : Instr, 0#32 &&& i.format.mask ≠ i.opcode.setWidth 32) ∧ decode 0x00400026#32 = .ok (.fxShl 0 64#8) ∧
    (64#8).toNat = 64 ∧ State.reset.build.W = 64 ∧ decode 0x00000010#32 = .ok (.fxEnc 0 false) ∧
    (65536#64).toNat = 2 ^ 16 ∧ (10000000000000000#64).toNat = 10 ^ 16 ∧ decode 0x00001012#32 = .ok (.fxGetrep 1) ∧
    (1 : Reg) ∈ (Instr.fxGetrep 1).reads ∧ State.reset.valid 1 = false := by
  refine ⟨fun i => ?_, by decide⟩
  cases i <;> simp [Instr.opcode]

theorem witness_divide_by_zero :
    ((ports 5 0).opB = 0) ∧ (regs v1_5 m0).valid 0 = true ∧ (regs v1_5 m0).valid 1 = true ∧
    ((regs v1_5 m0).freg 1).packed = 0 := by decide +kernel

theorem witness_valid_bits : (∃ t, exec (.fxEnc 2 false) (regs v1_5 m0) = .next t) ∧ (regs v1_5 m0).valid 0 = true ∧
    (regs v1_5 m0).valid 2 = false := ⟨⟨_, rfl⟩, by decide +kernel⟩

theorem witness_sign_sticks : (∃ t, exec (.fxAdd 0 1) (regs m0_2 v0_5) = .next t) ∧
    (Instr.fxAdd 0 1).constructs 0 = false ∧ (regs m0_2 v0_5).build.variant = .n16 ∧ ((regs m0_2 v0_5).freg 0).sign = true :=
  ⟨⟨_, rfl⟩, by decide +kernel⟩

/-- A state with two valid registers whose magnitudes agree, and a step from it. -/
theorem witness_magnitude : (regs v15_24 m0_2).build.variant = .n16 ∧ (regs v15_24 m0_2).MagnitudeInv ∧
    (∃ t, step (regs v15_24 m0_2) = .next t) ∧ ∃ t, exec (.fxMul 0 1) (regs v15_24 m0_2) = .next t := by
  refine ⟨rfl, ?_, ⟨_, rfl⟩, ⟨_, rfl⟩⟩
  unfold State.MagnitudeInv FxVal.Consistent
  decide +kernel

/-- Two states that differ in the fields of an invalid register, and step. -/
theorem witness_indistinguishable :
    State.reset.Indistinguishable
      { State.reset with f := State.reset.f.set 3 (⟨true, 7, 7, 7⟩ : FxVal 16 64), opA := 5#64, draws := 9 } ∧
    ∃ t, step State.reset = .next t :=
  ⟨⟨_, _, _, _, _, rfl, by decide +kernel, rfl⟩, _, rfl⟩

theorem witness_loops_end : (8 : Nat) ≤ 8 ∧ 2 * 8 ≤ 16 := by decide

theorem witness_pow_loop : (3#64 ≠ 0) ∧ (-2#64 ≠ 1) ∧ 0 ≤ sval 3#64 := by decide

theorem witness_div_mod : (ports (-7) 2).opB ≠ 0 ∧ (ports 5 0).opB = 0 := by decide

theorem witness_restoring_loop : 0 < 1 ∧ 0 < 1 ∧ minWord 64 ≠ 0 ∧ (1#64 ≠ 0) := by decide

theorem witness_div_of_min : 3 ≤ 3 ∧ 3 ≤ 64 := by decide

theorem witness_fraction : 9999999999999999 < 10 ^ 16 ∧ 0 < 10 ^ 0 := by decide

/-- The greatest legal decimal operand, and the two least illegal ones. -/
theorem witness_decimal :
    (ports 65535 9999999999999999).opA.toNat < 2 ^ State.reset.build.N ∧
    (ports 65535 9999999999999999).opB.toNat < 10 ^ State.reset.build.N ∧
    2 ^ State.reset.build.N ≤ (ports 65536 0).opA.toNat ∧ 10 ^ State.reset.build.N ≤ (ports 0 10000000000000000).opB.toNat := by
  decide

theorem witness_valid_and_invalid : (regs v1_5 m0).valid 0 = true ∧ (regs v1_5 m0).valid 1 = true ∧
    (regs v1_5 m0).valid 15 = false := by decide +kernel

theorem witness_view_after_setter :
    ((regs v1_5 m0).freg 0).sign = false ∧ ((regs v1_5 m1_0).freg 1).sign = true ∧ sval (-4294967295#64) < 0 ∧
    (sval (-4294967295#64)).natAbs < 2 ^ (2 * State.reset.build.N) ∧
    (sval (4294967295#64)).natAbs < 2 ^ (2 * State.reset.build.N) := by decide +kernel

theorem witness_fxdiv : (regs v1_5 v2_25).build.variant = .n16 ∧ (regs v1_5 v2_25).valid 0 = true ∧
    (regs v1_5 v2_25).valid 1 = true ∧ ((regs v1_5 v2_25).freg 1).packed ≠ 0 := by decide +kernel

theorem witness_fxdiv_wide :
    let s := wideRegs ⟨false, 7, 0, 0⟩ ⟨true, 2, 0, 0⟩
    s.build.variant = .n32 ∧ s.valid 0 = true ∧ s.valid 1 = true ∧ (s.freg 1).packed ≠ 0 := by decide +kernel

/-- Shift amounts at the ends of each range: 31 is below `W - 2N`, 63 is the greatest legal one, 64 is refused. -/
theorem witness_shift : (regs v15_24 m0).valid 0 = true ∧ (63#8).toNat < (regs v15_24 m0).build.W ∧
    (31#8).toNat < (regs v15_24 m0).build.W - 2 * (regs v15_24 m0).build.N ∧ (regs v15_24 m0).build.W ≤ (64#8).toNat ∧
    ((regs v15_24 m1_0).freg 1).sign = true := by decide +kernel

/-- A sum in range for a non-negative receiver, and one for a negative receiver with a non-negative sum. -/
theorem witness_add_in_range :
    ((regs v1_5 v2_25).freg 0).sign = false ∧
    (((regs v1_5 v2_25).freg 0).scaled + ((regs v1_5 v2_25).freg 1).scaled).natAbs < 2 ^ (2 * State.reset.build.N) ∧
    ((regs m0_2 v0_5).freg 0).sign = true ∧
    (((regs m0_2 v0_5).freg 0).scaled + ((regs m0_2 v0_5).freg 1).scaled).natAbs < 2 ^ (2 * State.reset.build.N) := by
  decide +kernel

theorem witness_string : 2399902343750000 < 10 ^ 16 := by decide

/-- A row of R61 on a register it is allowed on, with more digits than `N` and an integer part just past `W` bits. -/
theorem witness_pseudo : (14 : Reg) ≠ 15 ∧
    (HostSide.Pseudo.divd, Instr.fxDiv 14 15) ∈ [(HostSide.Pseudo.muld, Instr.fxMul 14 15), (.divd, .fxDiv 14 15)] ∧
    2 ^ 64 % 2 ^ Build.default16.W = 0 ∧ (List.replicate 17 (9 : Fin 10)).length = Build.default16.N + 1 := by decide

end Sys2Proof.Tests
end

section
/-! How a command ends (spec/60_exceptions.md R165, spec/10_state.md R43), said once over every command, and what no step
changes: the static parameters (spec/00_scope.md R5, spec/70_reset_and_hazards.md R181). -/

namespace Sys2Proof.Machine

/-- `s.Ends d t`: `t` is a way for a command with destination `d` to end in `s`. It fails, or it is OK and writes exactly its
destination (R43, R165). -/
inductive State.Ends (s : State) : Option Reg → State → Prop where
  | fail (d : Option Reg) (st : Status) (hst : st ≠ .ok) : s.Ends d (s.fail st)
  | respond (r : Response s.build.W) (hr : r.status = .ok) : s.Ends none (s.respond r)
  | store (d : Reg) (x : FxVal s.build.N s.build.W) (r : Response s.build.W) (hr : r.status = .ok) :
      s.Ends (some d) (s.store d x r)

theorem ends_refused (s : State) (d : Option Reg) : s.Ends d (s.fail .refused) := .fail d _ (by decide)

theorem ends_divideByZero (s : State) (d : Option Reg) : s.Ends d (s.fail .divideByZero) := .fail d _ (by decide)

theorem ends_storeReceiver (s : State) (d : Reg) (x : FxVal s.build.N s.build.W) :
    s.Ends (some d) (s.storeReceiver d x) := .store d x _ rfl

theorem ends_assignReceiver (s : State) (d : Reg) (v : Word s.build.W) : s.Ends (some d) (s.assignReceiver d v) :=
  ends_storeReceiver s d _

theorem answerKernel_ends {s t : State} {r : Option (Word s.build.W)} (h : answerKernel s r = .next t) : s.Ends none t := by
  obtain ⟨-, rfl⟩ | ⟨x, -, rfl⟩ := answerKernel_cases h
  · exact ends_divideByZero s none
  · exact .respond _ rfl

theorem fxBinary_ends {fd fs : Reg} {s t : State} {f : Word s.build.W → Word s.build.W → Option (Word s.build.W)}
    (h : fxBinary fd fs s f = .next t) : s.Ends (some fd) t := by
  obtain ⟨-, rfl⟩ | ⟨-, -, -, rfl⟩ | ⟨v, -, -, -, rfl⟩ := fxBinary_cases h
  · exact ends_refused s _
  · exact ends_divideByZero s _
  · exact ends_assignReceiver s fd v

theorem fxShift_ends {fd : Reg} {sh : BitVec 8} {s t : State} {f : Word s.build.W → Nat → Word s.build.W}
    (h : fxShift fd sh s f = .next t) : s.Ends (some fd) t := by
  obtain ⟨-, rfl⟩ | ⟨-, -, rfl⟩ := fxShift_cases h
  · exact ends_refused s _
  · exact ends_assignReceiver s fd _

theorem fxRead_ends {fs : Reg} {s t : State} {r : Response s.build.W} (hr : r.status = .ok)
    (h : fxRead fs s r = .next t) : s.Ends none t := by
  obtain ⟨-, rfl⟩ | ⟨-, rfl⟩ := fxRead_cases h
  · exact ends_refused s _
  · exact .respond r hr

theorem execFxEnc_ends {fd : Reg} {sg : Bool} {s t : State} (h : execFxEnc fd sg s = .next t) : s.Ends (some fd) t := by
  unfold execFxEnc at h
  split at h <;> cases h
  · exact ends_refused s _
  · exact ends_storeReceiver s fd _

theorem execFxCopy_ends {fd fs : Reg} {s t : State} (h : execFxCopy fd fs s = .next t) : s.Ends (some fd) t := by
  unfold execFxCopy at h
  split at h <;> cases h
  · exact ends_refused s _
  · exact .store fd _ _ rfl

theorem execFxSetrep_ends {fd : Reg} {s t : State} (h : execFxSetrep fd s = .next t) : s.Ends (some fd) t := by
  unfold execFxSetrep at h
  split at h <;> cases h
  · exact ends_refused s _
  · exact ends_assignReceiver s fd _

theorem execFxDiv_ends {fd fs : Reg} {s t : State} (h : execFxDiv fd fs s = .next t) : s.Ends (some fd) t := by
  unfold execFxDiv at h
  split at h
  · exact fxBinary_ends h
  · obtain ⟨-, rfl⟩ | ⟨-, -, -, rfl⟩ | ⟨-, -, -, rfl⟩ := fxDivWide_cases h
    · exact ends_refused s _
    · exact ends_divideByZero s _
    · exact ends_storeReceiver s fd _

/-- Whatever command runs, it fails or it writes exactly its destination (R43, R165). -/
theorem exec_ends {i : Instr} {s t : State} (h : exec i s = .next t) : s.Ends i.dest t := by
  cases i <;> dsimp only [exec] at h
  case add | sub | mul | div | mod | gcd | pow | neg | inc | dec => exact answerKernel_ends h
  case fxEnc => exact execFxEnc_ends h
  case fxCopy => exact execFxCopy_ends h
  case fxSetrep => exact execFxSetrep_ends h
  case fxGetrep | fxGetfld | fxStr | fxGetmag => exact fxRead_ends rfl h
  case fxAdd | fxSub | fxMul | fxAnd | fxXor => exact fxBinary_ends h
  case fxDiv => exact execFxDiv_ends h
  case fxShl | fxShr => exact fxShift_ends h

theorem State.Ends.build_eq {s t : State} {d : Option Reg} (h : s.Ends d t) : t.build = s.build := by
  cases h with
  | fail _ st => exact fail_build s st
  | respond r => exact respond_build s r
  | store d x r => exact store_build s d x r

theorem exec_build {i : Instr} {s t : State} (h : exec i s = .next t) : t.build = s.build := (exec_ends h).build_eq

/-- Settles O10: of the four kinds of step, idling and a malformed word leave the build, `rst` gives the reset state of the same
build (R181), and a command keeps the build however it ends. -/
theorem buildNeverChanges : Obligations.BuildNeverChanges := by
  intro s t h
  obtain ⟨-, rfl⟩ | ⟨_, rest, -, rfl⟩ | ⟨c, rest, _, -, -, rfl⟩ | ⟨c, rest, i, -, -, hexec⟩ := step_cases h
  · rfl
  · exact resetWith_build s.build rest s.draws
  · exact fail_build (s.accept c rest) .refused
  · calc t.build = (s.accept c rest).build := exec_build hexec
      _ = s.build := accept_build s c rest

end Sys2Proof.Machine
end

section
/-! The fixed-point fields as numbers (spec/10_state.md R24, R25; spec/44_fx_codec.md R128, R129, R133): the doubling loop's
closed form, and the two ways a value is made, each with a decimal magnitude that agrees with its packed integer. -/

namespace Sys2Proof.Machine.Fx

/-- The doubling loop appends the first `k` binary digits of the fraction `r / t` to the bits so far (R128). -/
theorem doublingLoop_eq {t : Nat} : ∀ (k r f : Nat), r < t → doublingLoop t k r f = f * 2 ^ k + r * 2 ^ k / t
  | 0, r, f, h => by simp [doublingLoop, Nat.div_eq_of_lt h]
  | k + 1, r, f, h => by
    have htwice : r * 2 ^ (k + 1) = 2 * r * 2 ^ k := by ring
    rw [doublingLoop]
    split_ifs with hr hge
    · simp [hr]
    · -- the digit is 1: one whole `t` is taken out of the doubled fraction
      have hcarry : 2 * r * 2 ^ k = (2 * r - t) * 2 ^ k + t * 2 ^ k := by
        rw [← Nat.add_mul, Nat.sub_add_cancel hge]
      rw [doublingLoop_eq k _ _ (by omega), htwice, hcarry, Nat.add_mul_div_left _ _ (by omega)]
      ring
    · rw [doublingLoop_eq k _ _ (by omega), htwice]
      ring

/-- The fraction bits are the decimal fraction truncated to `n` binary places (R129). -/
theorem fracBits_eq {n fd : Nat} (h : fd < 10 ^ n) : fracBits n fd = fd * 2 ^ n / 10 ^ n := by
  simp [fracBits, doublingLoop_eq n fd 0 h]

theorem fracBits_lt {n fd : Nat} (h : fd < 10 ^ n) : fracBits n fd < 2 ^ n := by
  rw [fracBits_eq h]
  exact Nat.div_lt_of_lt_mul (Nat.mul_lt_mul_of_pos_right h (by positivity))

@[simp] theorem intField_toNat {n : Nat} (p : BitVec (2 * n)) : (intField p).toNat = p.toNat / 2 ^ n := by
  have hp : p.toNat < 2 ^ n * 2 ^ n := by rw [← pow_add, ← two_mul]; exact p.isLt
  simp [intField, Nat.shiftRight_eq_div_pow, Nat.mod_eq_of_lt (Nat.div_lt_of_lt_mul hp)]

@[simp] theorem fracField_toNat {n : Nat} (p : BitVec (2 * n)) : (fracField p).toNat = p.toNat % 2 ^ n := by
  simp [fracField]

@[simp] theorem pack_toNat {n : Nat} (i f : BitVec n) : (pack i f).toNat = 2 ^ n * i.toNat + f.toNat := by
  rw [pack, BitVec.toNat_cast, BitVec.toNat_append, ← Nat.shiftLeft_add_eq_or_of_lt f.isLt, Nat.shiftLeft_eq, Nat.mul_comm]

theorem zext_toNat {w k : Nat} (h : k ≤ w) (v : BitVec k) : (zext w v).toNat = v.toNat :=
  BitVec.toNat_setWidth_of_le h

/-- `n` decimal digits fit every word (R5). -/
theorem ten_pow_le_two_pow {n w : Nat} (hw : 4 * n ≤ w) : 10 ^ n ≤ 2 ^ w := by
  calc 10 ^ n ≤ 16 ^ n := Nat.pow_le_pow_left (by decide) n
    _ = 2 ^ (4 * n) := by rw [pow_mul]; rfl
    _ ≤ 2 ^ w := Nat.pow_le_pow_right (by decide) hw

/-- A fractional field spelled in units of `10^-n` has at most `n` digits. -/
theorem frac_mul_five_pow_lt (n p : Nat) : p % 2 ^ n * 5 ^ n < 10 ^ n := by
  calc p % 2 ^ n * 5 ^ n < 2 ^ n * 5 ^ n := Nat.mul_lt_mul_of_pos_right (Nat.mod_lt _ (by positivity)) (by positivity)
    _ = 10 ^ n := (mul_pow 2 5 n).symm

/-- The fractional digits do not wrap (R137). -/
theorem fracDigits_toNat {n w : Nat} (hw : 4 * n ≤ w) (p : BitVec (2 * n)) :
    (fracDigits w p).toNat = p.toNat % 2 ^ n * 5 ^ n := by
  have hfit : p.toNat % 2 ^ n * 5 ^ n < 2 ^ w := (frac_mul_five_pow_lt n p.toNat).trans_le (ten_pow_le_two_pow hw)
  rw [fracDigits_eq, BitVec.toNat_mul, zext_toNat (by omega), fracField_toNat, BitVec.toNat_ofNat, Nat.mul_mod_mod,
    Nat.mod_eq_of_lt hfit]

/-- The setter re-derives the magnitude from the packed integer it stores (R28, R133). -/
theorem assign_consistent {n w : Nat} (hw : 4 * n ≤ w) (old : FxVal n w) (v : Word w) : (assign old v).Consistent := by
  unfold FxVal.Consistent
  rw [assign_packed, assign_mi, assign_mf, zext_toNat (by omega), intField_toNat, fracDigits_toNat hw]
  generalize ((Kernel.mag v).setWidth (2 * n)).toNat = p
  refine ⟨rfl, frac_mul_five_pow_lt n p, ?_⟩
  have hten : p % 2 ^ n * 5 ^ n * 2 ^ n = p % 2 ^ n * 10 ^ n := by
    rw [show 10 ^ n = 5 ^ n * 2 ^ n from mul_pow 5 2 n, mul_assoc]
  rw [hten, Nat.mul_div_cancel _ (by positivity)]

/-- FX.ENC packs the truncation of the very magnitude it stores (R28, R126). -/
theorem encodeDecimal_consistent {n w : Nat} (sg : Bool) (a b : Word w) (h : decimalLegal n a b = true) :
    (encodeDecimal n sg a b).Consistent := by
  obtain ⟨ha, hb⟩ := of_decide_eq_true h
  have hfrac := fracBits_lt hb
  have hpacked : (encodeDecimal n sg a b).packed.toNat = 2 ^ n * a.toNat + fracBits n b.toNat := by
    simp [encodeDecimal, Nat.mod_eq_of_lt ha, Nat.mod_eq_of_lt hfrac]
  refine ⟨?_, hb, ?_⟩
  · rw [hpacked, Nat.mul_add_div (by positivity), Nat.div_eq_of_lt hfrac]
    rfl
  · rw [hpacked, Nat.mul_add_mod, Nat.mod_eq_of_lt hfrac]
    exact fracBits_eq hb

end Sys2Proof.Machine.Fx
end

section
/-! What each command writes (spec/10_state.md R27, R28, R43), said once over every command, and the two invariants that follow:
valid bits are only set, and only by the constructing commands; a valid register's decimal magnitude agrees with its packed
integer. -/

namespace Sys2Proof.Machine

/-- `s.Writes i t`: `t` is `s` after command `i`, by what is written and under which check. Beside a construction by FX.ENC or
FX.COPY (R27), every write goes to a receiver that is valid already, through the setter (R133) or, for FX.DIV at `N = 32`, with
the open value (R156). -/
inductive State.Writes (s : State) (i : Instr) : State → Prop where
  | fail (st : Status) : s.Writes i (s.fail st)
  | respond (r : Response s.build.W) : s.Writes i (s.respond r)
  | encode (fd : Reg) (sg : Bool) (hi : i = .fxEnc fd sg) (hlegal : s.decimalLegal = true) :
      s.Writes i (s.storeReceiver fd (Fx.encodeDecimal s.build.N sg s.opA s.opB))
  | copy (fd fs : Reg) (hi : i = .fxCopy fd fs) (hfs : s.valid fs = true) :
      s.Writes i (s.store fd (s.freg fs) (okResponse 0 0 false))
  | assign (fd : Reg) (v : Word s.build.W) (hfd : s.valid fd = true) : s.Writes i (s.assignReceiver fd v)
  | openDivide (fd fs : Reg) (hi : i = .fxDiv fd fs) (hwide : s.build.variant = .n32) (hfd : s.valid fd = true) :
      s.Writes i (s.storeReceiver fd (Config.hpdiv32 s.build.N s.build.W (s.freg fd) (s.freg fs)))

/-- A command without a destination fails or answers. -/
theorem State.Ends.writes_of_none {i : Instr} {s t : State} (h : s.Ends none t) : s.Writes i t := by
  cases h with
  | fail _ st => exact .fail st
  | respond r => exact .respond r

theorem fxBinary_writes {i : Instr} {fd fs : Reg} {s t : State}
    {f : Word s.build.W → Word s.build.W → Option (Word s.build.W)} (h : fxBinary fd fs s f = .next t) : s.Writes i t := by
  obtain ⟨-, rfl⟩ | ⟨-, -, -, rfl⟩ | ⟨v, hfd, -, -, rfl⟩ := fxBinary_cases h
  · exact .fail _
  · exact .fail _
  · exact .assign fd v hfd

theorem fxShift_writes {i : Instr} {fd : Reg} {sh : BitVec 8} {s t : State} {f : Word s.build.W → Nat → Word s.build.W}
    (h : fxShift fd sh s f = .next t) : s.Writes i t := by
  obtain ⟨-, rfl⟩ | ⟨-, hfd, rfl⟩ := fxShift_cases h
  · exact .fail _
  · exact .assign fd _ hfd

theorem execFxEnc_writes {fd : Reg} {sg : Bool} {s t : State} (h : execFxEnc fd sg s = .next t) :
    s.Writes (.fxEnc fd sg) t := by
  unfold execFxEnc at h
  split at h <;> cases h
  next => exact .fail _
  next hcheck => exact .encode fd sg rfl (eq_true_of_ne_false hcheck)

theorem execFxCopy_writes {fd fs : Reg} {s t : State} (h : execFxCopy fd fs s = .next t) :
    s.Writes (.fxCopy fd fs) t := by
  unfold execFxCopy at h
  split at h <;> cases h
  next => exact .fail _
  next hcheck => exact .copy fd fs rfl (eq_true_of_ne_false hcheck)

theorem execFxSetrep_writes {i : Instr} {fd : Reg} {s t : State} (h : execFxSetrep fd s = .next t) : s.Writes i t := by
  unfold execFxSetrep at h
  split at h <;> cases h
  next => exact .fail _
  next hcheck => exact .assign fd _ (eq_true_of_ne_false hcheck)

theorem execFxDiv_writes {fd fs : Reg} {s t : State} (h : execFxDiv fd fs s = .next t) : s.Writes (.fxDiv fd fs) t := by
  unfold execFxDiv at h
  split at h
  next => exact fxBinary_writes h
  next hwide =>
    obtain ⟨-, rfl⟩ | ⟨-, -, -, rfl⟩ | ⟨hfd, -, -, rfl⟩ := fxDivWide_cases h
    · exact .fail _
    · exact .fail _
    · exact .openDivide fd fs rfl hwide hfd

theorem exec_writes {i : Instr} {s t : State} (h : exec i s = .next t) : s.Writes i t := by
  cases i <;> dsimp only [exec] at h
  case add | sub | mul | div | mod | gcd | pow | neg | inc | dec => exact (answerKernel_ends h).writes_of_none
  case fxGetrep | fxGetfld | fxStr | fxGetmag => exact (fxRead_ends rfl h).writes_of_none
  case fxEnc => exact execFxEnc_writes h
  case fxCopy => exact execFxCopy_writes h
  case fxSetrep => exact execFxSetrep_writes h
  case fxAdd | fxSub | fxMul | fxAnd | fxXor => exact fxBinary_writes h
  case fxDiv => exact execFxDiv_writes h
  case fxShl | fxShr => exact fxShift_writes h

/-! ## The valid bits -/

theorem State.Ends.valid_mono {s t : State} {d : Option Reg} (h : s.Ends d t) (j : Reg) (hj : s.valid j = true) :
    t.valid j = true := by
  cases h with
  | fail | respond => exact hj
  | store => simp [hj]

/-- Storing into register `d` makes valid what was valid, and `d`. -/
theorem eq_of_valid_store {s : State} {d j : Reg} {x : FxVal s.build.N s.build.W} {r : Response s.build.W}
    (hs : s.valid j = false) (ht : (s.store d x r).valid j = true) : d = j := by
  rw [valid_store, hs, Bool.or_false] at ht
  exact (of_decide_eq_true ht).symm

/-- A register that becomes valid is the one the command constructs (R27). -/
theorem State.Writes.constructs {i : Instr} {s t : State} {j : Reg} (h : s.Writes i t) (hs : s.valid j = false)
    (ht : t.valid j = true) : i.constructs j = true := by
  cases h with
  | fail | respond => exact absurd (hs.symm.trans ht) Bool.false_ne_true
  | encode fd sg hi =>
    obtain rfl := eq_of_valid_store hs ht
    simp [hi, Instr.constructs]
  | copy fd fs hi =>
    obtain rfl := eq_of_valid_store hs ht
    simp [hi, Instr.constructs]
  | assign fd v hfd | openDivide fd _ _ _ hfd =>
    obtain rfl := eq_of_valid_store hs ht
    exact absurd (hs.symm.trans hfd) Bool.false_ne_true

/-- Settles O14: however a command ends, the only valid bit it writes is its destination's, and it writes a 1 (R43); that
destination was valid before, unless the command is FX.ENC or FX.COPY. -/
theorem validBitsOnlyGrow : Obligations.ValidBitsOnlyGrow := by
  intro i s t j h
  exact ⟨(exec_ends h).valid_mono j, (exec_writes h).constructs⟩

/-- Settles O9: reset clears the valid bits of every build (R33, R180); the other clauses are the fields of the reset state. -/
theorem resetState : Obligations.ResetState :=
  ⟨fun b => ⟨rfl, valid_resetWith b [] 0, rfl, rfl⟩, rfl, rfl, rfl⟩

/-! ## The magnitude invariant -/

/-- After reset no register is valid, so no magnitude is claimed (R180). -/
theorem magnitudeInv_resetWith (b : Build) (l : List (HostInput b.W)) (k : Nat) : (State.resetWith b l k).MagnitudeInv :=
  fun j hj => absurd ((valid_resetWith b l k j).symm.trans hj) Bool.false_ne_true

/-- Storing a value whose magnitude agrees keeps the invariant: every other register is as before (R29). -/
theorem State.MagnitudeInv.store {s : State} (hs : s.MagnitudeInv) (d : Reg) {x : FxVal s.build.N s.build.W}
    (hx : x.Consistent) (r : Response s.build.W) : (s.store d x r).MagnitudeInv := by
  intro j hj
  by_cases hjd : j = d
  · subst hjd
    rw [freg_store_self]
    exact hx
  · rw [valid_store, decide_eq_false hjd, Bool.false_or] at hj
    rw [freg_store_ne s d j x r hjd]
    exact hs j hj

/-- Every kind of write but the open value of FX.DIV keeps the invariant. -/
theorem State.MagnitudeInv.writes {i : Instr} {s t : State} (hopen : s.build.variant = .n32 → i.isFxDiv = false)
    (hs : s.MagnitudeInv) (h : s.Writes i t) : t.MagnitudeInv := by
  cases h with
  | fail | respond => exact hs
  | encode fd sg _ hlegal => exact hs.store fd (Fx.encodeDecimal_consistent sg _ _ hlegal) _
  | copy fd fs _ hfs => exact hs.store fd (hs fs hfs) _
  | assign fd v => exact hs.store fd (Fx.assign_consistent s.build.wide _ v) _
  | openDivide fd fs hi hwide =>
    subst hi
    exact absurd (hopen hwide).symm Bool.false_ne_true

/-- Settles O18: the reset state of a build is the one with nothing presented and nothing drawn. -/
theorem magnitudeAgreesAtReset : Obligations.MagnitudeAgreesAtReset :=
  fun b => magnitudeInv_resetWith b [] 0

/-- Settles O17, from the kinds of write of a command; beside commands, idling and a malformed word leave the registers, and
reset leaves none valid. -/
theorem magnitudeAgreesForever : Obligations.MagnitudeAgreesForever := by
  refine ⟨fun s t hnarrow hs h => ?_, fun i s t hopen hs h => hs.writes hopen (exec_writes h)⟩
  obtain ⟨-, rfl⟩ | ⟨_, rest, -, rfl⟩ | ⟨c, rest, _, -, -, rfl⟩ | ⟨c, rest, i, -, -, hexec⟩ := step_cases h
  · exact hs
  · exact magnitudeInv_resetWith s.build rest s.draws
  · exact hs
  · have haccept : (s.accept c rest).MagnitudeInv := hs
    have hopen : (s.accept c rest).build.variant = .n32 → i.isFxDiv = false := by simp [hnarrow]
    exact haccept.writes hopen (exec_writes hexec)

end Sys2Proof.Machine
end

section
/-! The command word (spec/30_encoding.md R53 to R58): what its fields are, what a row of the opcode map asks of them, and that
the decoder and the encoder undo each other. -/

namespace Sys2Proof

/-! ## The fields of a word -/

/-- A word is determined by its fields (R53). -/
theorem fieldsOf_injective : Function.Injective fieldsOf := fun c c' h => by
  rw [← fields_append c, h, fields_append]

@[simp] theorem fieldsOf_wordOf (opc : BitVec 8) (fd fs : BitVec 4) (sh : BitVec 8) (sg : Bool) :
    fieldsOf (wordOf opc fd fs sh sg) = ⟨opc, fd, fs, sh, sg, 0#7⟩ := by
  simp (disch := decide) only [fieldsOf, wordOf, BitVec.extractLsb'_append_eq_of_le, BitVec.extractLsb'_append_eq_right,
    Nat.reduceSub, BitVec.getLsbD_append]
  simp

/-- A match value is the word whose other fields are zero (R54). -/
theorem setWidth_eq_wordOf (opc : BitVec 8) : opc.setWidth 32 = wordOf opc 0#4 0#4 0#8 false := by
  rw [BitVec.setWidth_eq_append (by decide)]
  rfl

/-- Masking works field by field: a word matches the mask and a match value when its opcode is that value and the fields the
format does not use are zero (R54, R58). -/
theorem and_mask_eq_iff (t : Format) (c : BitVec 32) (opc : BitVec 8) :
    c &&& t.mask = opc.setWidth 32 ↔ (fieldsOf c).opc = opc ∧ t.unusedZero (fieldsOf c) = true := by
  rw [← fieldsOf_injective.eq_iff, setWidth_eq_wordOf, fieldsOf_wordOf]
  have hones4 (x : BitVec 4) : x &&& 15#4 = x := BitVec.and_allOnes
  have hones7 (x : BitVec 7) : x &&& 127#7 = x := BitVec.and_allOnes
  have hones8 (x : BitVec 8) : x &&& 255#8 = x := BitVec.and_allOnes
  cases t <;> simp [fieldsOf, Format.mask, Format.unusedZero, BitVec.extractLsb'_and, hones4, hones7, hones8] <;> tauto

/-! ## The opcode map -/

/-- A row of the opcode map carries its command's opcode and format (R56). -/
theorem rowOf_eq_some {f : Fields} {t : Format} {i : Instr} (h : rowOf f = some (t, i)) :
    f.opc = i.opcode ∧ t = i.format := by
  unfold rowOf at h
  split at h <;> cases h
  all_goals exact ⟨BitVec.eq_of_toNat_eq ‹_›, rfl⟩

/-- The opcode alone selects the row, and so the format (R56). -/
theorem rowOf_of_opcode {f : Fields} {i : Instr} (h : f.opc = i.opcode) : ∃ j, rowOf f = some (i.format, j) := by
  cases i <;> simp [rowOf, h, Instr.opcode, Instr.format]

/-- The command of a row takes its operands from the fields its format uses, so its word has these very fields once the others
are zero (R54, R58). -/
theorem fieldsOf_encode_of_rowOf {f : Fields} {t : Format} {i : Instr} (h : rowOf f = some (t, i))
    (hz : t.unusedZero f = true) : fieldsOf (encode i) = f := by
  obtain ⟨hopc, -⟩ := rowOf_eq_some h
  obtain ⟨opc, fd, fs, sh, sg, zero⟩ := f
  unfold rowOf at h
  split at h <;> cases h
  all_goals simp_all [encode, Format.unusedZero]

/-- The word of a command selects that command's row, its operands back out of its fields (R55, R56). -/
theorem rowOf_encode (i : Instr) : rowOf (fieldsOf (encode i)) = some (i.format, i) := by
  cases i <;> simp [encode, Instr.opcode, Instr.format, rowOf]

theorem unusedZero_encode (i : Instr) : i.format.unusedZero (fieldsOf (encode i)) = true := by
  cases i <;> simp [encode, Instr.format, Format.unusedZero]

/-- Commands with the same opcode have the same format: the opcode selects one row (R56). -/
theorem format_eq_of_opcode_eq {i j : Instr} (h : i.opcode = j.opcode) : i.format = j.format := by
  have hrow := rowOf_encode i
  obtain ⟨k, hk⟩ := rowOf_of_opcode ((rowOf_eq_some hrow).1.trans h)
  rw [hrow] at hk
  exact congrArg Prod.fst (Option.some.inj hk)

/-! ## The decoder -/

/-- A word spells a command when the opcode map has it and the fields its format does not use are zero (R57, R58). -/
theorem decode_eq_ok_iff {c : BitVec 32} {i : Instr} :
    decode c = .ok i ↔ rowOf (fieldsOf c) = some (i.format, i) ∧ i.format.unusedZero (fieldsOf c) = true := by
  obtain ⟨hrow, hdec⟩ | ⟨t, j, hrow, hdec⟩ := decode_cases c
  · simp [hrow, hdec]
  · obtain ⟨-, rfl⟩ := rowOf_eq_some hrow
    rw [hdec, hrow]
    constructor
    · intro h
      split at h <;> cases h
      exact ⟨rfl, ‹_›⟩
    · rintro ⟨h, hz⟩
      obtain rfl : j = i := congrArg Prod.snd (Option.some.inj h)
      exact if_pos hz

/-- Settles O1: the word of a command lies in the command's row and leaves the unused fields zero. -/
theorem decodeInvertsEncode : Obligations.DecodeInvertsEncode :=
  fun i => decode_eq_ok_iff.2 ⟨rowOf_encode i, unusedZero_encode i⟩

/-- Settles O2: the word and the command's word have the same fields. -/
theorem encodeInvertsDecode : Obligations.EncodeInvertsDecode := by
  intro c i h
  obtain ⟨hrow, hz⟩ := decode_eq_ok_iff.1 h
  exact fieldsOf_injective (fieldsOf_encode_of_rowOf hrow hz)

/-- A word that spells a command has its opcode and matches its row. -/
theorem and_mask_of_decode {c : BitVec 32} {i : Instr} (h : decode c = .ok i) :
    c &&& i.format.mask = i.opcode.setWidth 32 := by
  obtain ⟨hrow, hz⟩ := decode_eq_ok_iff.1 h
  exact (and_mask_eq_iff i.format c i.opcode).2 ⟨(rowOf_eq_some hrow).1, hz⟩

theorem opcode_of_decode {c : BitVec 32} {i : Instr} (h : decode c = .ok i) : c.extractLsb' 0 8 = i.opcode :=
  (rowOf_eq_some (decode_eq_ok_iff.1 h).1).1

/-- Settles O3: both sides say that the opcode is in the map and that the fields its format does not use are zero. -/
theorem decodeIsMaskAndMatch : Obligations.DecodeIsMaskAndMatch := by
  refine fun c => ⟨fun i => and_mask_of_decode, fun ⟨i, hmatch⟩ => ?_⟩
  obtain ⟨hopc, hz⟩ := (and_mask_eq_iff i.format c i.opcode).1 hmatch
  obtain ⟨j, hrow⟩ := rowOf_of_opcode hopc
  obtain ⟨-, hformat⟩ := rowOf_eq_some hrow
  rw [hformat] at hrow hz
  exact ⟨j, decode_eq_ok_iff.2 ⟨hrow, hz⟩⟩

/-- Settles O4: the words are the encoder's. -/
theorem sampleWordsDecode : Obligations.SampleWordsDecode :=
  ⟨decodeInvertsEncode .add, decodeInvertsEncode .dec, decodeInvertsEncode (.fxEnc 15 true),
    decodeInvertsEncode (.fxAdd 2 15), decodeInvertsEncode (.fxStr 1), decodeInvertsEncode (.fxShl 1 64#8),
    decodeInvertsEncode (.fxSetrep 3)⟩

end Sys2Proof
end

section
/-! How a command is answered: a malformed word is refused with no other change (spec/30_encoding.md R57, R58), and a command that
runs ends in one response (spec/30_encoding.md R52, spec/60_exceptions.md R165). -/

namespace Sys2Proof.Machine

/-! ## Malformed words -/

/-- A command word that spells no command is answered REFUSED, and beside its acceptance nothing changes (R57, R58). -/
theorem step_of_malformed {s : State} {c : Command s.build.W} {rest : List (HostInput s.build.W)}
    (hin : s.inputs = .command c :: rest) (hbad : ∀ i, decode c.cmd ≠ .ok i) :
    step s = .next ((s.accept c rest).fail .refused) := by
  simp only [step, hin]
  cases hdec : decode c.cmd with
  | error e => rfl
  | ok i => exact absurd hdec (hbad i)

/-- Settles O5: a word that spells a command has that command's opcode. -/
theorem reservedOpcodeIsRefused : Obligations.ReservedOpcodeIsRefused := by
  intro s c rest hin hreserved
  exact step_of_malformed hin fun i hdec => hreserved i (opcode_of_decode hdec)

/-- Settles O6: a word that spells a command matches the row its opcode selects. -/
theorem nonzeroUnusedFieldIsRefused : Obligations.NonzeroUnusedFieldIsRefused := by
  intro s c rest i hin hopc hunused
  refine step_of_malformed hin fun j hdec => hunused ?_
  have hij : i.opcode = j.opcode := hopc.symm.trans (opcode_of_decode hdec)
  rw [format_eq_of_opcode_eq hij, hij]
  exact and_mask_of_decode hdec

/-! ## Every command is answered -/

theorem answerKernel_answers (s : State) (r : Option (Word s.build.W)) : ∃ t, answerKernel s r = .next t := by
  cases r <;> exact ⟨_, rfl⟩

/-- A check before an answer leaves an answer. -/
theorem ite_answers {o : Host.Outcome State Fault Refusal} (p : Prop) [Decidable p] (s : State) (h : ∃ t, o = .next t) :
    ∃ t, (if p then .next s else o) = .next t := by
  split
  · exact ⟨s, rfl⟩
  · exact h

theorem fxBinary_answers (fd fs : Reg) (s : State) (f : Word s.build.W → Word s.build.W → Option (Word s.build.W)) :
    ∃ t, fxBinary fd fs s f = .next t := by
  refine ite_answers _ _ (ite_answers _ _ ?_)
  split <;> exact ⟨_, rfl⟩

theorem fxShift_answers (fd : Reg) (sh : BitVec 8) (s : State) (f : Word s.build.W → Nat → Word s.build.W) :
    ∃ t, fxShift fd sh s f = .next t :=
  ite_answers _ _ (ite_answers _ _ ⟨_, rfl⟩)

theorem fxRead_answers (fs : Reg) (s : State) (r : Response s.build.W) : ∃ t, fxRead fs s r = .next t :=
  ite_answers _ _ ⟨_, rfl⟩

theorem execFxDiv_answers (fd fs : Reg) (s : State) : ∃ t, execFxDiv fd fs s = .next t := by
  unfold execFxDiv
  split
  · exact fxBinary_answers fd fs s _
  · exact ite_answers _ _ (ite_answers _ _ (ite_answers _ _ ⟨_, rfl⟩))

/-- Every command answers: the model has no fault and no refusal for one (R165). -/
theorem exec_answers (i : Instr) (s : State) : ∃ t, exec i s = .next t := by
  cases i <;> dsimp only [exec]
  case add | sub | mul | div | mod | gcd | pow | neg | inc | dec => exact answerKernel_answers s _
  case fxEnc | fxCopy | fxSetrep => exact ite_answers _ _ ⟨_, rfl⟩
  case fxGetrep | fxGetfld | fxStr | fxGetmag => exact fxRead_answers _ s _
  case fxAdd | fxSub | fxMul | fxAnd | fxXor => exact fxBinary_answers _ _ s _
  case fxDiv => exact execFxDiv_answers _ _ s
  case fxShl | fxShr => exact fxShift_answers _ _ s _

theorem changedOnly_respond (s : State) (r : Response s.build.W) : s.ChangedOnly (s.respond r) none r :=
  ⟨s.f, s.v, rfl, fun _ _ => ⟨rfl, rfl⟩⟩

/-- A register write leaves every other register and valid bit (R29). -/
theorem changedOnly_store (s : State) (d : Reg) (x : FxVal s.build.N s.build.W) (r : Response s.build.W) :
    s.ChangedOnly (s.store d x r) (some d) r := by
  refine ⟨_, _, rfl, fun j hj => ?_⟩
  have hne : j ≠ d := fun h => hj (congrArg some h.symm)
  have hvalid : (s.store d x r).valid j = s.valid j := by simp [hne]
  exact ⟨freg_store_ne s d j x r hne, hvalid⟩

/-- Settles O11: every command answers, and each way it can end is a failure or a write of at most its destination. -/
theorem everyCommandAnswersOnce : Obligations.EveryCommandAnswersOnce := by
  intro i s
  obtain ⟨t, hexec⟩ := exec_answers i s
  refine ⟨t, hexec, ?_⟩
  have hends := exec_ends hexec
  generalize i.dest = d at hends ⊢
  cases hends with
  | fail _ st hst => exact .inl ⟨st, hst, rfl⟩
  | respond r hr => exact .inr ⟨r, hr, changedOnly_respond s r⟩
  | store d x r hr => exact .inr ⟨r, hr, changedOnly_store s d x r⟩

end Sys2Proof.Machine
end

section
/-! The assembler's pseudo-instructions (spec/30_encoding.md R60, R61). -/

namespace Sys2Proof.Machine.HostSide

/-- The `N` digits after the point fit operand word `B` (R5, R60). -/
theorem ofNat_scaled_toNat (b : Build) (d : Decimal) : (BitVec.ofNat b.W (d.scaled b.N)).toNat = d.scaled b.N := by
  rw [BitVec.toNat_ofNat]
  exact Nat.mod_eq_of_lt ((scaled_lt b.N d).trans_le (Fx.ten_pow_le_two_pow b.wide))

/-- The six rows of R61. -/
theorem operator_of_mem_rows {fd : Reg} {row : Pseudo × Instr}
    (h : row ∈ [(Pseudo.addd, Instr.fxAdd fd 15), (.subd, .fxSub fd 15), (.andd, .fxAnd fd 15), (.xord, .fxXor fd 15),
      (.muld, .fxMul fd 15), (.divd, .fxDiv fd 15)]) : row.1.operator fd = row.2 := by
  simp only [List.mem_cons, List.not_mem_nil, or_false] at h
  obtain rfl | rfl | rfl | rfl | rfl | rfl := h <;> rfl

/-- Settles O58: both commands are presented as the encoder's words, which decode to them. -/
theorem pseudoInstructionExpands : Obligations.PseudoInstructionExpands := by
  refine fun b fd d => ⟨fun hfd => ?_, fun p => if_pos rfl⟩
  refine ⟨⟨encode (.fxEnc 15 d.minus), BitVec.ofNat b.W d.ip, BitVec.ofNat b.W (d.scaled b.N)⟩, decodeInvertsEncode _,
    BitVec.toNat_ofNat _ _, (ofNat_scaled_toNat b d).trans (scaled_eq b.N d), fun row hrow => ?_⟩
  refine ⟨⟨encode (row.1.operator fd), 0, 0⟩, if_neg hfd, ?_⟩
  rw [← operator_of_mem_rows hrow]
  exact decodeInvertsEncode _

end Sys2Proof.Machine.HostSide
end

section
/-! The adder and the subtractor against their result laws (spec/40_addsub.md R70 to R77): `wrap` carries the signed sum,
difference and negation to the word operations, which the kernel's loops compute. -/

namespace Sys2Proof.Machine

/-! ## Wrapping, in the model's spelling of the library's `BitVec.ofInt` and `BitVec.toInt` -/

theorem wrap_add (w : Nat) (x y : Int) : wrap w (x + y) = wrap w x + wrap w y := BitVec.ofInt_add x y

theorem wrap_neg (w : Nat) (x : Int) : wrap w (-x) = -wrap w x := BitVec.ofInt_neg

theorem wrap_sub (w : Nat) (x y : Int) : wrap w (x - y) = wrap w x - wrap w y := by
  rw [Int.sub_eq_add_neg, wrap_add, wrap_neg, BitVec.sub_eq_add_neg]

theorem wrap_sval {w : Nat} (x : Word w) : wrap w (sval x) = x := BitVec.ofInt_toInt

theorem wrap_one (w : Nat) : wrap w 1 = 1#w := BitVec.ofInt_ofNat w 1

/-! ## The loops' bound -/

/-- Fuel of at least the width leaves no carry step out (R70). -/
theorem Kernel.carryLoop_of_le {w k : Nat} (hk : w ≤ k) (a b : Word w) : carryLoop k a b = a + b :=
  carryLoop_eq k a b fun i hi => by omega

/-- Fuel of at least the width leaves no borrow step out (R72). -/
theorem Kernel.borrowLoop_of_le {w k : Nat} (hk : w ≤ k) (a b : Word w) : borrowLoop k a b = a - b :=
  borrowLoop_eq k a b fun i hi => by omega

/-! ## What each command answers, as a word operation -/

theorem exec_add_eq (s : State) : exec .add s = .next (s.answer (s.opA + s.opB)) := by
  rw [← Kernel.add_eq]; rfl

theorem exec_sub_eq (s : State) : exec .sub s = .next (s.answer (s.opA - s.opB)) := by
  rw [← Kernel.sub_eq]; rfl

theorem exec_inc_eq (s : State) : exec .inc s = .next (s.answer (s.opA + 1#s.build.W)) := by
  rw [← Kernel.inc_eq]; rfl

theorem exec_dec_eq (s : State) : exec .dec s = .next (s.answer (s.opA - 1#s.build.W)) := by
  rw [← Kernel.dec_eq]; rfl

theorem exec_neg_eq (s : State) : exec .neg s = .next (s.answer (-s.opA)) := by
  rw [← Kernel.neg_eq]; rfl

/-! ## The result laws -/

/-- Settles O20: every carry step keeps the sum, and the carry word is zero after `W` steps. -/
theorem addWrapsTheSum : Obligations.AddWrapsTheSum := by
  refine ⟨decodeInvertsEncode .add, fun s => ?_, fun w k a b hk => ?_⟩
  · rw [exec_add_eq, wrap_add, wrap_sval, wrap_sval]
  · rw [Kernel.carryLoop_of_le hk, wrap_add, wrap_sval, wrap_sval]

/-- Settles O21: every borrow step keeps the difference, and the borrow word is zero after `W` steps. -/
theorem subWrapsTheDifference : Obligations.SubWrapsTheDifference := by
  refine ⟨decodeInvertsEncode .sub, fun s => ?_, fun w k a b hk => ?_⟩
  · rw [exec_sub_eq, wrap_sub, wrap_sval, wrap_sval]
  · rw [Kernel.borrowLoop_of_le hk, wrap_sub, wrap_sval, wrap_sval]

/-- Settles O22: INC is the adder with second operand 1 (R73). -/
theorem incAddsOne : Obligations.IncAddsOne := by
  refine ⟨decodeInvertsEncode .inc, fun s => ?_⟩
  rw [exec_inc_eq, wrap_add, wrap_sval, wrap_one]

/-- Settles O23: DEC is the subtractor with second operand 1 (R77). -/
theorem decSubtractsOne : Obligations.DecSubtractsOne := by
  refine ⟨decodeInvertsEncode .dec, fun s => ?_⟩
  rw [exec_dec_eq, wrap_sub, wrap_sval, wrap_one]

/-- Settles O24: complement and add one is the negation of a word, which fixes `MIN` and undoes itself. -/
theorem negWrapsTheNegation : Obligations.NegWrapsTheNegation := by
  refine ⟨decodeInvertsEncode .neg, fun s => ?_, fun w => ?_, fun w a => ?_⟩
  · rw [exec_neg_eq, wrap_neg, wrap_sval]
  · rw [Kernel.neg_eq, BitVec.neg_intMin]
  · rw [Kernel.neg_eq, Kernel.neg_eq, BitVec.neg_neg]

end Sys2Proof.Machine
end

section
/-! The multiplier and the power against their result laws (spec/41_multiply_power.md R90 to R93): the spec's linear loop and
the model's repeated squaring are both the power in the ring of words, to which `wrap` carries the integer power. -/

namespace Sys2Proof.Machine

/-! ## The two power loops -/

/-- The linear loop multiplies the accumulator by one factor per unit of the exponent (R92). -/
theorem Kernel.powLoop_eq {w : Nat} (a : Word w) : ∀ (e : Nat) (acc : Word w), powLoop a e acc = acc * a ^ e
  | 0, acc => by rw [powLoop, pow_zero, mul_one]
  | e + 1, acc => by rw [powLoop, powLoop_eq a e, mul_eq, pow_succ', mul_assoc]

/-- One squaring step keeps the power: the exponent's low bit goes to the accumulator, the rest to the squared base. -/
theorem Kernel.squaring_step {w : Nat} (a acc : Word w) (e : Nat) :
    (if e % 2 = 1 then acc * a else acc) * (a * a) ^ (e / 2) = acc * a ^ e := by
  have hsq : (a * a) ^ (e / 2) = a ^ (2 * (e / 2)) := by rw [pow_mul, sq]
  rw [hsq]
  rcases Nat.mod_two_eq_zero_or_one e with h | h
  · rw [if_neg (by omega), show 2 * (e / 2) = e by omega]
  · rw [if_pos h, mul_assoc, ← pow_succ', show 2 * (e / 2) + 1 = e by omega]

/-- Repeated squaring ends with the power as soon as its fuel covers the exponent's bits (R93). -/
theorem Kernel.powSquare_eq {w : Nat} : ∀ (k : Nat) (a : Word w) (e : Nat) (acc : Word w), e < 2 ^ k →
    powSquare k a e acc = acc * a ^ e
  | 0, a, e, acc, h => by rw [powSquare, Nat.lt_one_iff.1 h, pow_zero, mul_one]
  | k + 1, a, e, acc, h => by
    rw [powSquare]
    by_cases he : e = 0
    · rw [if_pos he, he, pow_zero, mul_one]
    · rw [if_neg he, powSquare_eq k _ _ _ (by rw [pow_succ] at h; omega), squaring_step]

/-! ## Signed values -/

theorem sval_lt_zero_iff {w : Nat} (x : Word w) : sval x < 0 ↔ x.msb = true := by
  rw [BitVec.msb_eq_toInt, decide_eq_true_iff, sval]

theorem toNat_sval_of_nonneg {w : Nat} {x : Word w} (h : 0 ≤ sval x) : (sval x).toNat = x.toNat := by
  have hm : x.msb = false := by
    rw [← Bool.not_eq_true, ← sval_lt_zero_iff]; exact not_lt.2 h
  rw [sval, BitVec.toInt_eq_toNat_of_msb hm, Int.toNat_natCast]

/-- From two bits on, the word 1 is the only word of value 1; the one-bit word 1 has the value -1. -/
theorem sval_eq_one_iff {w : Nat} (hw : 2 ≤ w) (x : Word w) : sval x = 1 ↔ x = 1#w := by
  have h1 : sval (1#w) = 1 := BitVec.toInt_one hw
  constructor
  · intro h; exact BitVec.eq_of_toInt_eq (h.trans h1.symm)
  · rintro rfl; exact h1

/-- Every build has room for its fields (R5), so its words have more than one bit. -/
theorem two_le_W (b : Build) : 2 ≤ b.W := by
  have hN : 1 ≤ b.variant.N := by cases b.variant <;> decide
  have hwide := b.wide
  omega

theorem wrap_mul (w : Nat) (x y : Int) : wrap w (x * y) = wrap w x * wrap w y := BitVec.ofInt_mul x y

theorem wrap_pow (w : Nat) (x : Int) : ∀ n : Nat, wrap w (x ^ n) = wrap w x ^ n
  | 0 => by rw [pow_zero, pow_zero, wrap_one]; rfl
  | n + 1 => by rw [pow_succ, pow_succ, wrap_mul, wrap_pow w x n]

/-! ## What each command answers, as a word operation -/

/-- The power command's value by its cases, the last one a power of words (R92, R93). -/
theorem Kernel.power_eq {w : Nat} (a b : Word w) :
    power a b = if b = 0#w ∨ a = 1#w then 1#w else if sval b < 0 then 0#w else a ^ (sval b).toNat := by
  unfold power
  simp only [← sval_lt_zero_iff]
  refine if_congr Iff.rfl rfl ?_
  split
  case isTrue => rfl
  case isFalse hb =>
    rw [powSquare_eq w a _ _ b.isLt, toNat_sval_of_nonneg (not_lt.1 hb)]
    exact one_mul _

theorem exec_mul_eq (s : State) : exec .mul s = .next (s.answer (s.opA * s.opB)) := by
  rw [← Kernel.mul_eq]; rfl

theorem exec_pow_eq (s : State) : exec .pow s = .next (s.answer (Kernel.power s.opA s.opB)) := rfl

/-! ## The result laws -/

/-- Settles O25: the shift-and-add loop gives the product of the words, which `wrap` carries the signed product to. -/
theorem mulWrapsTheProduct : Obligations.MulWrapsTheProduct := by
  refine ⟨decodeInvertsEncode .mul, fun s => ?_⟩
  rw [exec_mul_eq, wrap_mul, wrap_sval, wrap_sval]

/-- Settles O26: repeated squaring gives the power of the word, which `wrap` carries the signed power to; every build has words
of more than one bit, so the tests on words and on their values agree. -/
theorem powWrapsThePower : Obligations.PowWrapsThePower := by
  refine ⟨decodeInvertsEncode .pow, fun s => ?_⟩
  rw [exec_pow_eq, Kernel.power_eq, wrap_pow, wrap_sval, wrap_one]
  simp only [sval_eq_one_iff (two_le_W s.build)]
  rfl

/-- Settles O27: where neither test of R92 answers first, both loops compute the power of the word. -/
theorem powEqualsTheLinearLoop : Obligations.PowEqualsTheLinearLoop := by
  intro w a b hb ha hs
  have hfirst : ¬(b = 0#w ∨ a = 1#w) := not_or.2 ⟨hb, ha⟩
  rw [Kernel.power_eq, if_neg hfirst, if_neg (not_lt.2 hs), Kernel.powLoop_eq]
  exact (one_mul _).symm

end Sys2Proof.Machine
end

section
/-! The divider and the modulo unit against their result laws (spec/42_divide_modulo.md R100 to R108): the restoring loop is
division of the magnitudes, the sign stage turns its quotient into the floor of the signed quotient, and what the modulo unit
subtracts from the dividend leaves the floor remainder, which always fits a word. -/

namespace Sys2Proof.Machine

/-! ## Floor division of integers, by signs and magnitudes -/

theorem fdiv_of_sign_eq {x y : Int} (h : x < 0 ↔ y < 0) : x.fdiv y = (x.natAbs / y.natAbs : Nat) := by
  rw [Int.ofNat_fdiv]
  obtain ⟨hx, hy⟩ | ⟨hx, hy⟩ : (x.natAbs = x ∧ y.natAbs = y) ∨ (x.natAbs = -x ∧ y.natAbs = -y) := by omega
  · rw [hx, hy]
  · rw [hx, hy, Int.neg_fdiv_neg]

/-- A quotient that must be negative is the negated quotient of the magnitudes, one less when the division is not exact. -/
theorem fdiv_of_sign_ne {x y : Int} (hy0 : y ≠ 0) (h : ¬(x < 0 ↔ y < 0)) :
    x.fdiv y = if y.natAbs ∣ x.natAbs then -((x.natAbs / y.natAbs : Nat) : Int)
      else -((x.natAbs / y.natAbs : Nat) : Int) - 1 := by
  have hmag : x.fdiv y = Int.fdiv x.natAbs (-y.natAbs) := by
    obtain ⟨hx, hy⟩ | ⟨hx, hy⟩ :
        (x.natAbs = x ∧ -(y.natAbs : Int) = y) ∨ (x.natAbs = -x ∧ -(y.natAbs : Int) = -y) := by omega
    · rw [hx, hy]
    · rw [hx, hy, Int.neg_fdiv_neg]
  rw [hmag, Int.fdiv_neg (by omega)]
  simp only [Int.natCast_dvd_natCast, Int.ofNat_fdiv]

theorem fdiv_neg_eq_neg_one {x m : Int} (hx : 0 < x) (hm : x ≤ m) : x.fdiv (-m) = -1 :=
  ((Int.fdiv_fmod_unique' (r := x - m) (by omega)).2 ⟨by ring, by omega, by omega⟩).1

/-- The floor remainder is 0 or has the divisor's sign, and is smaller than the divisor in magnitude. -/
theorem fmod_sign_and_size {x y : Int} (hy : y ≠ 0) :
    (x.fmod y = 0 ∨ (x.fmod y < 0 ↔ y < 0)) ∧ (x.fmod y).natAbs < y.natAbs := by
  rcases lt_or_gt_of_ne hy with hneg | hpos
  · obtain ⟨-, hlt, hle⟩ := (Int.fdiv_fmod_unique' (a := x) hneg).1 ⟨rfl, rfl⟩
    omega
  · have hle := Int.fmod_nonneg_of_pos x hpos
    have hlt := Int.fmod_lt_of_pos x hpos
    omega

/-! ## Words and their signed values -/

theorem sval_zero (w : Nat) : sval (0 : Word w) = 0 := BitVec.toInt_zero

theorem sval_ne_zero_iff {w : Nat} {x : Word w} : sval x ≠ 0 ↔ x ≠ 0 :=
  not_congr (by rw [← sval_zero w]; exact BitVec.toInt_inj)

theorem msb_eq_iff {w : Nat} (a b : Word w) : a.msb = b.msb ↔ (sval a < 0 ↔ sval b < 0) := by
  rw [sval_lt_zero_iff, sval_lt_zero_iff, Bool.eq_iff_iff]

/-- An integer smaller in magnitude than the value of some word fits a word. -/
theorem sval_wrap_of_natAbs_lt {w : Nat} {z : Int} (b : Word w) (h : z.natAbs < (sval b).natAbs) : sval (wrap w z) = z := by
  have hlo : -2 ^ (w - 1) ≤ sval b := b.le_toInt
  have hhi : sval b < 2 ^ (w - 1) := b.toInt_lt
  have hw : 0 < w := by
    rcases Nat.eq_zero_or_pos w with rfl | hw
    · rw [sval, BitVec.toInt_zero_length] at h
      omega
    · exact hw
  exact BitVec.toInt_ofInt_eq_self hw (by omega) (by omega)

/-! ## The restoring loop -/

theorem Kernel.lt_two_pow_bitlen (m : Nat) : m < 2 ^ bitlen m := by
  unfold bitlen
  split_ifs with h
  · rw [h]; decide
  · exact Nat.lt_log2_self

/-- Throughout the loop `0 <= R < D`, and `k` steps divide the remainder scaled by `2^k`: the quotient goes below the bits
recorded so far, the rest is the running remainder (R101). -/
theorem Kernel.restoringLoop_eq {d : Nat} : ∀ (k r q : Nat), r < d →
    restoringLoop d k r q = (q * 2 ^ k + r * 2 ^ k / d, ((r * 2 ^ k % d : Nat) : Int))
  | 0, r, q, h => by simp [restoringLoop, Nat.div_eq_of_lt h, Nat.mod_eq_of_lt h]
  | k + 1, r, q, h => by
    have htwice : r * 2 ^ (k + 1) = 2 * r * 2 ^ k := by ring
    rw [restoringLoop, htwice]
    split_ifs with hge
    case pos =>
      -- the recorded bit is 1: one whole divisor is taken out of the doubled remainder
      have hkeep : (2 * r - d : Int) = (2 * r - d : Nat) := by omega
      have hcarry : 2 * r * 2 ^ k = (2 * r - d) * 2 ^ k + d * 2 ^ k := by
        rw [← Nat.add_mul, Nat.sub_add_cancel (by omega)]
      rw [hkeep, restoringLoop_eq k _ _ (by omega), hcarry, Nat.add_mul_div_left _ _ (by omega), Nat.add_mul_mod_self_left]
      congr 1
      ring
    case neg =>
      have hrestore : (2 * r - d + d : Int) = (2 * r : Nat) := by omega
      rw [hrestore, restoringLoop_eq k _ _ (by omega)]
      congr 1
      ring

/-- The loop starts with the dividend itself as the remainder, below the divisor aligned past its top bit (R101). -/
theorem Kernel.udiv_eq (m : Nat) {d : Nat} (hd : 0 < d) :
    udiv m d = (m / d, (((m % d) * 2 ^ bitlen m : Nat) : Int)) := by
  have hpow : 0 < 2 ^ bitlen m := by positivity
  have hstart : m < d * 2 ^ bitlen m := (lt_two_pow_bitlen m).trans_le (Nat.le_mul_of_pos_left _ hd)
  have halign : (d * 2 ^ bitlen m : Int) = (d * 2 ^ bitlen m : Nat) := by push_cast; rfl
  rw [udiv, halign, restoringLoop_eq _ _ _ hstart, Nat.mul_div_mul_right _ _ hpow, Nat.mul_mod_mul_right, Nat.zero_mul,
    Nat.zero_add]

theorem Kernel.mag_pos {w : Nat} {b : Word w} (hb : b ≠ 0) : 0 < (mag b).toNat := by
  rw [mag_toNat]
  exact Int.natAbs_pos.2 (sval_ne_zero_iff.2 hb)

/-- The scaled remainder is zero exactly when the remainder is (R102). -/
theorem Kernel.divisible_iff {w : Nat} (a : Word w) {b : Word w} (hb : b ≠ 0) :
    divisible a b = true ↔ (sval b).natAbs ∣ (sval a).natAbs := by
  rw [divisible, decide_eq_true_iff, udiv_eq _ (mag_pos hb), mag_toNat, mag_toNat, Int.natCast_eq_zero,
    mul_eq_zero_iff_right (Nat.two_pow_pos _).ne', Nat.dvd_iff_mod_eq_zero]

/-! ## The sign stage, the divider and the modulo unit -/

/-- The quotient of the magnitudes with the floor's sign correction: `NOT Q` is `-Q - 1` (R104). -/
theorem Kernel.signStage_eq {w : Nat} (a : Word w) {b : Word w} (hb : b ≠ 0) :
    signStage a b = wrap w ((sval a).fdiv (sval b)) := by
  rw [signStage, udiv_eq _ (mag_pos hb), mag_toNat, mag_toNat]
  simp only [msb_eq_iff, divisible_iff a hb, neg_eq]
  split_ifs with hsign hdvd
  · rw [fdiv_of_sign_eq hsign, wrap, BitVec.ofInt_natCast]
  · rw [fdiv_of_sign_ne (sval_ne_zero_iff.2 hb) hsign, if_pos hdvd, wrap_neg, wrap, BitVec.ofInt_natCast]
  · rw [fdiv_of_sign_ne (sval_ne_zero_iff.2 hb) hsign, if_neg hdvd, wrap_sub, wrap_neg, wrap_one, wrap, BitVec.ofInt_natCast,
      BitVec.not_eq_neg_add]

theorem Kernel.divide_zero {w : Nat} (a : Word w) : divide a 0 = none := if_pos rfl

theorem Kernel.modulo_zero {w : Nat} (a : Word w) : modulo a 0 = none := by
  rw [modulo, divide_zero, Option.map_none]

theorem Kernel.divide_eq {w : Nat} (a : Word w) {b : Word w} (hb : b ≠ 0) :
    divide a b = some (wrap w ((sval a).fdiv (sval b))) := by
  unfold divide
  split_ifs with hb0 ha
  · exact absurd hb0 hb
  · rw [ha, sval, BitVec.toInt_zero, Int.zero_fdiv]; rfl
  · rw [signStage_eq a hb]

/-- Subtracting the wrapped product of quotient and divisor leaves the wrapped floor remainder (R105). -/
theorem Kernel.modulo_eq {w : Nat} (a : Word w) {b : Word w} (hb : b ≠ 0) :
    modulo a b = some (wrap w ((sval a).fmod (sval b))) := by
  rw [modulo, divide_eq a hb, Option.map_some, sub_eq, mul_eq, Int.fmod_def, wrap_sub, wrap_mul, wrap_sval, wrap_sval,
    BitVec.mul_comm]

/-- The divider at operands of known values. -/
theorem Kernel.divide_of_sval {w : Nat} {a b : Word w} {x y : Int} (ha : sval a = x) (hb : sval b = y) (hy : y ≠ 0) :
    divide a b = some (wrap w (x.fdiv y)) := by
  subst ha hb
  exact divide_eq a (sval_ne_zero_iff.1 hy)

/-! ## What the commands answer -/

theorem exec_div_eq (s : State) : exec .div s = answerKernel s (Kernel.divide s.opA s.opB) := rfl

theorem exec_mod_eq (s : State) : exec .mod s = answerKernel s (Kernel.modulo s.opA s.opB) := rfl

/-! ## The result laws -/

/-- Settles O30: the loop divides the magnitudes and scales the remainder, so the probe's zero test is divisibility. -/
theorem restoringLoopDivides : Obligations.RestoringLoopDivides :=
  ⟨fun m _ _ hd => Kernel.udiv_eq m hd, fun _ a _ _ hb => Kernel.divisible_iff a hb⟩

/-- Settles O28: the sign stage floors the quotient of the magnitudes, and the zero test of the divisor comes first. -/
theorem divFloors : Obligations.DivFloors := by
  refine ⟨decodeInvertsEncode .div, fun s hb => ?_, fun s hb => ?_⟩
  · rw [exec_div_eq, Kernel.divide_eq _ hb]; rfl
  · rw [exec_div_eq, hb, Kernel.divide_zero]; rfl

/-- Settles O29: the answer is the wrapped floor remainder, which is smaller than the divisor and so is not changed by
wrapping. -/
theorem modTakesTheDivisorsSign : Obligations.ModTakesTheDivisorsSign := by
  refine ⟨decodeInvertsEncode .mod, fun s hb => ?_, fun s hb => ?_⟩
  · obtain ⟨hsign, hsize⟩ := fmod_sign_and_size (x := sval s.opA) (sval_ne_zero_iff.2 hb)
    have hfits := sval_wrap_of_natAbs_lt s.opB hsize
    refine ⟨wrap s.build.W ((sval s.opA).fmod (sval s.opB)), ?_, ?_, ?_, ?_⟩
    · rw [exec_mod_eq, Kernel.modulo_eq _ hb]; rfl
    · rw [Int.fmod_def, Int.mul_comm]
    · rw [hfits]
      exact hsign.imp_left fun h => by rw [h]; rfl
    · rw [hfits]; exact hsize
  · rw [exec_mod_eq, hb, Kernel.modulo_zero]; rfl

/-- Settles O31: `MIN / -1` is `2^(W-1)`, which wraps to `MIN`; every other quotient of the list fits a word. -/
theorem divOfMinWord : Obligations.DivOfMinWord := by
  intro w hw
  have hhalf : (2 : Int) ^ (w - 1) = 2 ^ (w - 2) * 2 := by rw [← pow_succ]; congr 1; omega
  have hroom : (2 : Int) ≤ 2 ^ (w - 2) := le_self_pow₀ (by decide) (by omega)
  have hmin : sval (minWord w) = -2 ^ (w - 1) := BitVec.toInt_intMin_of_pos (by omega)
  have hmax : sval (maxWord w) = 2 ^ (w - 1) - 1 := BitVec.toInt_intMax
  have hsmall : ∀ z : Int, -2 ≤ z → z ≤ 2 → sval (wrap w z) = z := fun z hlo hhi =>
    BitVec.toInt_ofInt_eq_self (by omega) (by omega) (by omega)
  have hmin_wrap : wrap w (-2 ^ (w - 1)) = minWord w := by rw [← hmin, wrap_sval]
  have hoverflow : wrap w (2 ^ (w - 1)) = minWord w := by
    rw [← neg_neg ((2 : Int) ^ (w - 1)), wrap_neg, hmin_wrap, BitVec.neg_intMin]
  have hm1 := hsmall (-1) (by decide) (by decide)
  refine ⟨?_, ?_, ?_, ?_, ?_, ?_, ?_⟩
  · rw [Kernel.divide_of_sval hmin hm1 (by decide), Int.neg_fdiv_neg, Int.fdiv_one, hoverflow]
  · rw [Kernel.divide_of_sval hmin (hsmall 1 (by decide) (by decide)) (by decide), Int.fdiv_one, hmin_wrap]
  · rw [Kernel.divide_of_sval hmin hmin (by omega), Int.fdiv_self (by omega)]
  · rw [Kernel.divide_of_sval hmin (hsmall 2 (by decide) (by decide)) (by decide), hhalf, ← Int.neg_mul,
      Int.mul_fdiv_cancel _ (by decide)]
  · rw [Kernel.divide_of_sval hmax hmin (by omega), fdiv_neg_eq_neg_one (by omega) (by omega)]
  · rw [Kernel.divide_of_sval (hsmall 1 (by decide) (by decide)) hmin (by omega),
      fdiv_neg_eq_neg_one (by decide) (by omega)]
  · have hne : wrap w (-1) ≠ 0 := sval_ne_zero_iff.1 (by rw [hm1]; decide)
    rw [Kernel.modulo_eq _ hne, hmin, hm1, Int.neg_fmod_neg, Int.fmod_one]
    rfl

end Sys2Proof.Machine
end

section
/-! The GCD engine against its result law (spec/43_gcd.md R115 to R117): every recursive case halves at least one of the
magnitudes and keeps their greatest common divisor, so the bits of the pair bound the recursion's depth. -/

namespace Sys2Proof.Machine

/-! ## The recursion's operations on magnitudes, as numbers -/

/-- Halving a magnitude is a logical right shift by one, for the magnitude of `MIN` too (R116). -/
theorem Kernel.lsr_one_toNat {w : Nat} (x : Word w) : (lsr x 1).toNat = x.toNat / 2 := by
  rw [lsr, BitVec.toNat_ushiftRight, Nat.shiftRight_eq_div_pow, pow_one]

/-- Doubling is a left shift by one, modulo `2^W` (R116). -/
theorem Kernel.shl_one_ofNat (w n : Nat) : shl (BitVec.ofNat w n) 1 = BitVec.ofNat w (2 * n) := by
  apply BitVec.eq_of_toNat_eq
  rw [shl, BitVec.toNat_shiftLeft, BitVec.toNat_ofNat, BitVec.toNat_ofNat, Nat.shiftLeft_eq, pow_one, Nat.mod_mul_mod,
    Nat.mul_comm]

theorem getLsbD_zero_eq_false_iff {w : Nat} (x : Word w) : x.getLsbD 0 = false ↔ 2 ∣ x.toNat := by
  rw [BitVec.getLsbD, Nat.testBit_zero, decide_eq_false_iff_not]
  omega

/-- Halving the difference of two odd magnitudes, the odd-odd step (R116). -/
theorem Kernel.lsr_sub_toNat {w : Nat} {x y : Word w} (h : y.toNat ≤ x.toNat) :
    (lsr (sub x y) 1).toNat = (x.toNat - y.toNat) / 2 := by
  rw [lsr_one_toNat, sub_eq, BitVec.toNat_sub_of_le h]

/-! ## The bits of a magnitude -/

theorem Kernel.bitlen_le_iff {m n : Nat} : bitlen m ≤ n ↔ m < 2 ^ n := by
  unfold bitlen
  split_ifs with h
  · simp [h]
  · exact Nat.log2_lt h

theorem Kernel.bitlen_toNat_le {w : Nat} (x : Word w) : bitlen x.toNat ≤ w := bitlen_le_iff.2 x.isLt

/-- What is at most half of a positive magnitude has fewer bits. -/
theorem Kernel.bitlen_lt_of_two_mul_le {m n : Nat} (hn : 0 < n) (h : 2 * m ≤ n) : bitlen m < bitlen n := by
  have hlt := lt_two_pow_bitlen n
  cases hb : bitlen n with
  | zero =>
    rw [hb, pow_zero] at hlt
    omega
  | succ b =>
    rw [hb, pow_succ] at hlt
    exact Nat.lt_succ_of_le (bitlen_le_iff.2 (by omega))

/-! ## Stein's steps keep the greatest common divisor -/

theorem gcd_of_even {x y : Nat} (hx : 2 ∣ x) (hy : 2 ∣ y) : Nat.gcd x y = 2 * Nat.gcd (x / 2) (y / 2) := by
  rw [← Nat.gcd_mul_left, Nat.mul_div_cancel' hx, Nat.mul_div_cancel' hy]

/-- A factor 2 of one number is no factor of an odd other one. -/
theorem gcd_half_left {x y : Nat} (hx : 2 ∣ x) (hy : ¬2 ∣ y) : Nat.gcd (x / 2) y = Nat.gcd x y := by
  have hcoprime : Nat.Coprime 2 y := (Nat.Prime.coprime_iff_not_dvd Nat.prime_two).2 hy
  rw [← hcoprime.gcd_mul_left_cancel, Nat.mul_div_cancel' hx]

theorem gcd_half_sub {x y : Nat} (hx : ¬2 ∣ x) (hy : ¬2 ∣ y) (h : y ≤ x) :
    Nat.gcd ((x - y) / 2) y = Nat.gcd x y := by
  rw [gcd_half_left (by omega) hy, Nat.gcd_sub_self_left h]

/-! ## The recursion -/

/-- The case of R116 for the word 1; words of no bits, where it spells 0, are all equal. -/
theorem ofNat_gcd_of_one {w : Nat} {x y : Word w} (h : x = 1#w ∨ y = 1#w) :
    BitVec.ofNat w (Nat.gcd x.toNat y.toNat) = 1#w := by
  rcases Nat.eq_zero_or_pos w with rfl | hw
  · exact Subsingleton.elim _ _
  · have h1 : (1#w).toNat = 1 := BitVec.toNat_one hw
    rcases h with rfl | rfl
    · rw [h1, Nat.gcd_one_left]
    · rw [h1, Nat.gcd_one_right]

/-- The recursion gives the greatest common divisor as soon as its fuel covers the bits of both magnitudes (R116). -/
theorem Kernel.gcdSteps_eq {w : Nat} : ∀ (k : Nat) (x y : Word w), bitlen x.toNat + bitlen y.toNat ≤ k →
    gcdSteps k x y = BitVec.ofNat w (Nat.gcd x.toNat y.toNat)
  | 0, x, y, hk => by
    have hx : x.toNat < 2 ^ 0 := bitlen_le_iff.1 (by omega)
    rw [gcdSteps, Nat.lt_one_iff.1 hx, Nat.gcd_zero_left, BitVec.ofNat_toNat, BitVec.setWidth_eq]
  | k + 1, x, y, hk => by
    rw [gcdSteps]
    simp only [getLsbD_zero_eq_false_iff, BitVec.lt_def]
    by_cases hx : x = 0#w
    · simp [hx]
    by_cases hy : y = 0#w
    · simp [hx, hy]
    have hx0 := BitVec.toNat_pos_of_ne_zero hx
    have hy0 := BitVec.toNat_pos_of_ne_zero hy
    have hxhalf := bitlen_lt_of_two_mul_le hx0 (Nat.mul_div_le x.toNat 2)
    have hyhalf := bitlen_lt_of_two_mul_le hy0 (Nat.mul_div_le y.toNat 2)
    rw [if_neg hx, if_neg hy]
    split_ifs with heq hone heven hxeven hyeven hlt
    · rw [heq, Nat.gcd_self, BitVec.ofNat_toNat, BitVec.setWidth_eq]
    · exact (ofNat_gcd_of_one hone).symm
    · -- both even
      rw [gcdSteps_eq k _ _ (by simp only [lsr_one_toNat]; omega), shl_one_ofNat, lsr_one_toNat, lsr_one_toNat,
        ← gcd_of_even heven.1 heven.2]
    · -- only `x` even
      have hyodd : ¬2 ∣ y.toNat := fun h => heven ⟨hxeven, h⟩
      rw [gcdSteps_eq k _ _ (by rw [lsr_one_toNat]; omega), lsr_one_toNat, gcd_half_left hxeven hyodd]
    · -- only `y` even
      rw [gcdSteps_eq k _ _ (by rw [lsr_one_toNat]; omega), lsr_one_toNat, Nat.gcd_comm, gcd_half_left hyeven hxeven,
        Nat.gcd_comm]
    · -- both odd, `x` larger
      have hsub : bitlen ((x.toNat - y.toNat) / 2) < bitlen x.toNat := bitlen_lt_of_two_mul_le hx0 (by omega)
      have hto := lsr_sub_toNat hlt.le
      rw [gcdSteps_eq k _ _ (by rw [hto]; omega), hto, gcd_half_sub hxeven hyeven hlt.le]
    · -- both odd, `y` larger
      have hsub : bitlen ((y.toNat - x.toNat) / 2) < bitlen y.toNat := bitlen_lt_of_two_mul_le hy0 (by omega)
      have hto := lsr_sub_toNat (not_lt.1 hlt)
      rw [gcdSteps_eq k _ _ (by rw [hto]; omega), hto, gcd_half_sub hyeven hxeven (not_lt.1 hlt), Nat.gcd_comm]

/-- Two words have at most `2W` bits (R116). -/
theorem Kernel.gcdSteps_of_le {w k : Nat} (hk : 2 * w ≤ k) (x y : Word w) :
    gcdSteps k x y = BitVec.ofNat w (Nat.gcd x.toNat y.toNat) := by
  have hx := bitlen_toNat_le x
  have hy := bitlen_toNat_le y
  exact gcdSteps_eq k x y (by omega)

theorem Kernel.gcd_eq {w : Nat} (a b : Word w) :
    gcd a b = BitVec.ofNat w (Nat.gcd (sval a).natAbs (sval b).natAbs) := by
  rw [gcd, gcdSteps_of_le le_rfl, mag_toNat, mag_toNat]

/-! ## What the command answers -/

theorem exec_gcd_eq (s : State) : exec .gcd s = .next (s.answer (Kernel.gcd s.opA s.opB)) := rfl

/-! ## The result laws -/

/-- Settles O33: with fuel for the bits of two words the recursion gives the greatest common divisor, whatever fuel is left. -/
theorem gcdEndsWithinTwoW : Obligations.GcdEndsWithinTwoW := by
  intro w k x y hk
  rw [Kernel.gcdSteps_of_le hk, Kernel.gcdSteps_of_le le_rfl]

/-- Settles O32: the engine runs the recursion on the magnitudes with fuel for all their bits. -/
theorem gcdOfTheMagnitudes : Obligations.GcdOfTheMagnitudes := by
  refine ⟨decodeInvertsEncode .gcd, fun s => ?_⟩
  rw [exec_gcd_eq, Kernel.gcd_eq, wrap, BitVec.ofInt_natCast]

end Sys2Proof.Machine
end

section
/-! The command word as a number (spec/30_encoding.md R53, R54): each field at its place value, format by format. -/

namespace Sys2Proof

/-- Appending puts the upper part above the bits of the lower one. -/
theorem append_toNat {m n : Nat} (x : BitVec m) (y : BitVec n) : (x ++ y).toNat = x.toNat * 2 ^ n + y.toNat := by
  rw [BitVec.toNat_append, ← Nat.shiftLeft_add_eq_or_of_lt y.isLt, Nat.shiftLeft_eq]

/-- A command word is the sum of its fields at their places (R53). -/
theorem wordOf_eq_ofNat (opc : BitVec 8) (fd fs : BitVec 4) (sh : BitVec 8) (sg : Bool) :
    wordOf opc fd fs sh sg =
      BitVec.ofNat 32 (opc.toNat + fd.toNat * 2 ^ 8 + fs.toNat * 2 ^ 12 + sh.toNat * 2 ^ 16 + sg.toNat * 2 ^ 24) := by
  have hsum : (wordOf opc fd fs sh sg).toNat =
      opc.toNat + fd.toNat * 2 ^ 8 + fs.toNat * 2 ^ 12 + sh.toNat * 2 ^ 16 + sg.toNat * 2 ^ 24 := by
    simp only [wordOf, append_toNat, BitVec.toNat_ofBool, BitVec.toNat_zero]
    ring
  rw [← hsum, BitVec.ofNat_toNat, BitVec.setWidth_eq]

@[simp] theorem regBits_toNat (r : Reg) : (regBits r).toNat = r.val := Nat.mod_eq_of_lt r.isLt

/-- The word of a command decodes to it, in whatever spelling. -/
theorem decode_of_encode_eq {i : Instr} {c : BitVec 32} (h : encode i = c) : decode c = .ok i :=
  h ▸ decodeInvertsEncode i

/-- The word of a command of format FE (R54). -/
theorem decode_fe {i : Instr} {fd : Reg} {sg : Bool} (h : encode i = wordOf i.opcode (regBits fd) 0#4 0#8 sg) :
    decode (BitVec.ofNat 32 (i.opcode.toNat + fd.val * 2 ^ 8 + sg.toNat * 2 ^ 24)) = .ok i :=
  decode_of_encode_eq (by simp [h, wordOf_eq_ofNat])

/-- The word of a command of format FR (R54). -/
theorem decode_fr {i : Instr} {fd fs : Reg} (h : encode i = wordOf i.opcode (regBits fd) (regBits fs) 0#8 false) :
    decode (BitVec.ofNat 32 (i.opcode.toNat + fd.val * 2 ^ 8 + fs.val * 2 ^ 12)) = .ok i :=
  decode_of_encode_eq (by simp [h, wordOf_eq_ofNat])

/-- The word of a command of format F1 (R54). -/
theorem decode_f1 {i : Instr} {fs : Reg} (h : encode i = wordOf i.opcode 0#4 (regBits fs) 0#8 false) :
    decode (BitVec.ofNat 32 (i.opcode.toNat + fs.val * 2 ^ 12)) = .ok i :=
  decode_of_encode_eq (by simp [h, wordOf_eq_ofNat])

/-- The word of a command of format FV (R54). -/
theorem decode_fv {i : Instr} {fd : Reg} (h : encode i = wordOf i.opcode (regBits fd) 0#4 0#8 false) :
    decode (BitVec.ofNat 32 (i.opcode.toNat + fd.val * 2 ^ 8)) = .ok i :=
  decode_of_encode_eq (by simp [h, wordOf_eq_ofNat])

end Sys2Proof
end

section
/-! The fixed-point codec against its rules (spec/44_fx_codec.md R126 to R139): the signed view, the fraction and its two
bounds, what FX.ENC and the setter store, and what the reading commands answer. -/

namespace Sys2Proof.Machine

/-! ## The sign -/

/-- A sign that is 1 stays 1 over a write whose value, where it lands on this very register, has sign 1 (R29). -/
theorem sign_store {s : State} {d j : Reg} {x : FxVal s.build.N s.build.W} (r : Response s.build.W)
    (hj : (s.freg j).sign = true) (hx : j = d → x.sign = true) : ((s.store d x r).freg j).sign = true := by
  rw [freg_store]
  split_ifs with hjd
  · exact hx hjd
  · exact hj

/-- Every kind of write but a construction and the open value of FX.DIV keeps a sign that is 1: the setter merges into it
(R134). -/
theorem State.Writes.sign_mono {i : Instr} {s t : State} {j : Reg} (hmakes : i.constructs j = false)
    (hopen : s.build.variant = .n32 → i.isFxDiv = false) (hj : (s.freg j).sign = true) (h : s.Writes i t) :
    (t.freg j).sign = true := by
  cases h with
  | fail | respond => exact hj
  | encode fd _ hi | copy fd _ hi =>
    have hne : j ≠ fd := by
      rintro rfl
      simp [hi, Instr.constructs] at hmakes
    exact sign_store _ hj fun hjd => absurd hjd hne
  | assign fd v =>
    refine sign_store _ hj fun hjd => ?_
    rw [assign_sign, ← hjd, hj, Bool.true_or]
  | openDivide fd fs hi hwide =>
    subst hi
    exact absurd (hopen hwide).symm Bool.false_ne_true

/-- Settles O15, from the kinds of write of a command. -/
theorem signSticks : Obligations.SignSticks :=
  fun _ _ _ _ h hmakes hopen hj => (exec_writes h).sign_mono hmakes hopen hj

/-! ## The signed view -/

/-- The packed integer is shorter than the magnitude of a word (R5). -/
theorem two_mul_N_lt_W (b : Build) : 2 * b.N < b.W := by
  have hN : 1 ≤ b.N := by rw [Build.N]; cases b.variant <;> decide
  have hwide : 4 * b.N ≤ b.W := b.wide
  omega

theorem wrap_toNat (w : Nat) {k : Nat} (p : BitVec k) : wrap w p.toNat = zext w p := by
  rw [wrap, BitVec.ofInt_natCast, BitVec.ofNat_toNat]

/-- The signed view wraps the signed packed integer (R131). -/
theorem rep_eq_wrap_scaled {n w : Nat} (x : FxVal n w) : Fx.rep x = wrap w x.scaled := by
  rw [rep_eq, FxVal.scaled]
  split_ifs
  · rw [wrap_neg, wrap_toNat]
  · rw [wrap_toNat]

theorem natAbs_scaled {n w : Nat} (x : FxVal n w) : x.scaled.natAbs = x.packed.toNat := by
  rw [FxVal.scaled]
  split_ifs
  · rw [Int.natAbs_neg, Int.natAbs_natCast]
  · rw [Int.natAbs_natCast]

/-- The signed packed integer is smaller than `MIN`, so wrapping does not change it (R131). -/
theorem sval_wrap_scaled {n w : Nat} (hw : 2 * n < w) (x : FxVal n w) : sval (wrap w x.scaled) = x.scaled := by
  refine sval_wrap_of_natAbs_lt (minWord w) ?_
  rw [natAbs_scaled, sval, BitVec.toInt_intMin_of_pos (by omega), Int.natAbs_neg, Int.natAbs_pow]
  calc x.packed.toNat < 2 ^ (2 * n) := x.packed.isLt
    _ ≤ 2 ^ (w - 1) := Nat.pow_le_pow_right (by decide) (by omega)

/-- Settles O34: the view negates the packed integer when the sign is 1, and `2N` bits stay below the sign bit. -/
theorem viewIsTheSignedPackedInteger : Obligations.ViewIsTheSignedPackedInteger := by
  intro s i
  have hview : s.view i = wrap s.build.W (s.freg i).scaled := rep_eq_wrap_scaled _
  refine ⟨hview, ?_⟩
  rw [hview, sval_wrap_scaled (two_mul_N_lt_W s.build)]

/-- A receiver is returned with its wrapped value and its sign (R145). -/
theorem storeReceiver_eq (s : State) (d : Reg) (x : FxVal s.build.N s.build.W) :
    s.storeReceiver d x = s.store d x (okResponse (wrap s.build.W x.scaled) 0 x.sign) := by
  rw [State.storeReceiver, receiverResponse, rep_eq_wrap_scaled]

/-! ## The fraction -/

/-- Truncation loses less than one unit of the last binary place and gains nothing (R129). -/
theorem Fx.fracBits_bounds {n fd : Nat} (h : fd < 10 ^ n) :
    fracBits n fd * 10 ^ n ≤ fd * 2 ^ n ∧ fd * 2 ^ n < (fracBits n fd + 1) * 10 ^ n := by
  rw [fracBits_eq h]
  exact ⟨Nat.div_mul_le_self _ _, (Nat.div_lt_iff_lt_mul (by positivity)).1 (Nat.lt_succ_self _)⟩

/-- Settles O35: the loop's closed form, and the bounds of a truncated quotient. -/
theorem fractionIsTruncated : Obligations.FractionIsTruncated :=
  fun _ _ h => ⟨Fx.fracBits_eq h, Fx.fracBits_bounds h⟩

/-- Reading the truncated bits back in units of `10^-n`, each bit pattern worth `5^n` of them, loses less than `2^-n` and gains
nothing (R139). -/
theorem Fx.fracBits_readback {n fd : Nat} (h : fd < 10 ^ n) :
    fracBits n fd * 5 ^ n ≤ fd ∧ (fd - fracBits n fd * 5 ^ n) * 2 ^ n < 10 ^ n := by
  obtain ⟨hle, hlt⟩ := fracBits_bounds h
  have hunits : fracBits n fd * 5 ^ n * 2 ^ n = fracBits n fd * 10 ^ n := by
    rw [mul_assoc, show 10 ^ n = 5 ^ n * 2 ^ n from mul_pow 5 2 n]
  refine ⟨Nat.le_of_mul_le_mul_right (hunits.trans_le hle) (by positivity), ?_⟩
  rw [Nat.sub_mul, hunits]
  rw [Nat.add_mul, Nat.one_mul] at hlt
  omega

/-! ## FX.ENC and FX.COPY -/

theorem Fx.decimalLegal_iff {n w : Nat} {a b : Word w} : decimalLegal n a b = true ↔ a.toNat < 2 ^ n ∧ b.toNat < 10 ^ n :=
  decide_eq_true_iff

/-- Minus zero is not negative (R126). -/
theorem Flags.encodedSign_eq {w : Nat} (sg : Bool) (a b : Word w) :
    encodedSign sg a b = (sg && decide (a ≠ 0 ∨ b ≠ 0)) := by
  simp [encodedSign, bne, beq_eq_decide]

/-- The fields of an encoded decimal: its own integer part, its fraction truncated. -/
theorem Fx.encodeDecimal_packed {n w : Nat} (sg : Bool) {a b : Word w} (ha : a.toNat < 2 ^ n) (hb : b.toNat < 10 ^ n) :
    (encodeDecimal n sg a b).packed.toNat = a.toNat * 2 ^ n + b.toNat * 2 ^ n / 10 ^ n := by
  obtain ⟨hint, -, hfrac⟩ := encodeDecimal_consistent sg a b (decimalLegal_iff.2 ⟨ha, hb⟩)
  rw [← Nat.div_add_mod' (encodeDecimal n sg a b).packed.toNat (2 ^ n), ← hint, hfrac]
  rfl

/-- The value of a legal decimal, field by field (R126). -/
theorem Fx.encodeDecimal_eq {n w : Nat} (sg : Bool) {a b : Word w} (ha : a.toNat < 2 ^ n) (hb : b.toNat < 10 ^ n) :
    encodeDecimal n sg a b =
      { sign := sg && decide (a ≠ 0 ∨ b ≠ 0)
        packed := BitVec.ofNat _ (a.toNat * 2 ^ n + b.toNat * 2 ^ n / 10 ^ n)
        mi := a
        mf := b } := by
  rw [← Flags.encodedSign_eq, ← encodeDecimal_packed sg ha hb, BitVec.ofNat_toNat, BitVec.setWidth_eq]
  rfl

theorem exec_fxEnc_legal {fd : Reg} {sg : Bool} {s : State} (ha : s.opA.toNat < 2 ^ s.build.N)
    (hb : s.opB.toNat < 10 ^ s.build.N) :
    exec (.fxEnc fd sg) s = .next (s.storeReceiver fd (Fx.encodeDecimal s.build.N sg s.opA s.opB)) := by
  have hlegal : s.decimalLegal = true := Fx.decimalLegal_iff.2 ⟨ha, hb⟩
  exact if_neg (by simp [hlegal])

theorem exec_fxEnc_illegal {fd : Reg} {sg : Bool} {s : State}
    (h : 2 ^ s.build.N ≤ s.opA.toNat ∨ 10 ^ s.build.N ≤ s.opB.toNat) :
    exec (.fxEnc fd sg) s = .next (s.fail .refused) := by
  have hlegal : s.decimalLegal = false := by
    rw [← Bool.not_eq_true, State.decimalLegal, Fx.decimalLegal_iff]
    omega
  exact if_pos hlegal

/-- Settles O36: an encoded decimal keeps its operand words beside the sign and the packed integer. -/
theorem encStoresTheDecimal : Obligations.EncStoresTheDecimal := by
  refine ⟨fun fd sg => decode_fe (i := .fxEnc fd sg) rfl, ?_, fun _ _ _ h => exec_fxEnc_illegal h⟩
  intro fd sg s ha hb
  rw [exec_fxEnc_legal ha hb, storeReceiver_eq, Fx.encodeDecimal_eq sg ha hb]

/-- Settles O37: FX.COPY stores the source register as it is. -/
theorem copyCopiesAllFields : Obligations.CopyCopiesAllFields :=
  ⟨fun fd fs => decode_fr (i := .fxCopy fd fs) rfl, fun _ _ _ h => if_neg (by simp [h]), fun _ _ _ h => if_pos h⟩

/-! ## The reading commands -/

theorem fxRead_of_valid {fs : Reg} {s : State} (h : s.valid fs = true) (r : Response s.build.W) :
    fxRead fs s r = .next (s.respond r) := if_neg (by simp [h])

theorem fxRead_of_invalid {fs : Reg} {s : State} (h : s.valid fs = false) (r : Response s.build.W) :
    fxRead fs s r = .next (s.fail .refused) := if_pos h

theorem exec_fxGetrep_eq (fs : Reg) (s : State) :
    exec (.fxGetrep fs) s = fxRead fs s (okResponse (wrap s.build.W (s.freg fs).scaled) 0 (s.freg fs).sign) := by
  rw [← rep_eq_wrap_scaled]; rfl

theorem exec_fxGetfld_eq (fs : Reg) (s : State) :
    exec (.fxGetfld fs) s = fxRead fs s (okResponse (wrap s.build.W (s.freg fs).packed.toNat) 0 (s.freg fs).sign) := by
  rw [wrap_toNat]; rfl

theorem exec_fxStr_eq (fs : Reg) (s : State) :
    exec (.fxStr fs) s = fxRead fs s (okResponse (s.intDigits fs) (s.fracDigits fs) (s.freg fs).sign) := rfl

theorem exec_fxGetmag_eq (fs : Reg) (s : State) :
    exec (.fxGetmag fs) s = fxRead fs s (okResponse (s.freg fs).mi (s.freg fs).mf false) := rfl

/-- The integer digits are the integer field, which fits a word (R5, R137). -/
theorem State.intDigits_toNat (s : State) (i : Reg) : (s.intDigits i).toNat = (s.freg i).packed.toNat / 2 ^ s.build.N := by
  have hwide := two_mul_N_lt_W s.build
  rw [State.intDigits, Fx.zext_toNat (by omega), Fx.intField_toNat]

/-- The fractional digits are the fractional field in units of `10^-N` (R137). -/
theorem State.fracDigits_toNat (s : State) (i : Reg) :
    (s.fracDigits i).toNat = (s.freg i).packed.toNat % 2 ^ s.build.N * 5 ^ s.build.N :=
  Fx.fracDigits_toNat s.build.wide _

/-- Settles O38: the view and the packed integer of a valid register, as wrapped numbers. -/
theorem getrepAndGetfldRead : Obligations.GetrepAndGetfldRead := by
  refine ⟨fun fs => ⟨decode_f1 (i := .fxGetrep fs) rfl, decode_f1 (i := .fxGetfld fs) rfl⟩, fun fs s h => ?_,
    fun fs s h => ?_⟩
  · rw [exec_fxGetrep_eq, exec_fxGetfld_eq, fxRead_of_valid h, fxRead_of_valid h]
    exact ⟨rfl, rfl⟩
  · rw [exec_fxGetrep_eq, exec_fxGetfld_eq, fxRead_of_invalid h, fxRead_of_invalid h]
    exact ⟨rfl, rfl⟩

/-- Settles O39: both fields fit a word, the fractional one also in units of `10^-N`. -/
theorem strReadsTheDigits : Obligations.StrReadsTheDigits := by
  refine ⟨fun fs => decode_f1 (i := .fxStr fs) rfl, fun fs s h => ?_, fun fs s h => fxRead_of_invalid h _⟩
  refine ⟨s.intDigits fs, s.fracDigits fs, fxRead_of_valid h _, s.intDigits_toNat fs, s.fracDigits_toNat fs, ?_⟩
  rw [s.fracDigits_toNat]
  exact Fx.frac_mul_five_pow_lt _ _

/-- Settles O40: the stored magnitude is read as it is. -/
theorem getmagReadsTheMagnitude : Obligations.GetmagReadsTheMagnitude :=
  ⟨fun fs => decode_f1 (i := .fxGetmag fs) rfl, fun _ _ h => fxRead_of_valid h _, fun _ _ h => fxRead_of_invalid h _⟩

/-! ## The setter -/

/-- Settles O41: the merged sign, the low `2N` bits of the magnitude, and the two fields of these bits as the digits. -/
theorem setterClosedForm : Obligations.SetterClosedForm := by
  intro s d v
  have hwide := two_mul_N_lt_W s.build
  refine ⟨Fx.assign (s.freg d) v, storeReceiver_eq s d _, ?_, ?_, ?_, ?_⟩
  · rw [assign_sign, BitVec.msb_eq_toInt]
  · rw [assign_packed, BitVec.toNat_setWidth, Kernel.mag_toNat]
  · rw [assign_mi, assign_packed, Fx.zext_toNat (by omega), Fx.intField_toNat]
  · rw [assign_mf, assign_packed, Fx.fracDigits_toNat s.build.wide]

theorem exec_fxSetrep_valid {fd : Reg} {s : State} (h : s.valid fd = true) :
    exec (.fxSetrep fd) s = .next (s.assignReceiver fd s.opA) := if_neg (by simp [h])

/-- Settles O43: FX.SETREP is the setter on the operand word. -/
theorem setrepAssignsTheOperand : Obligations.SetrepAssignsTheOperand := by
  refine ⟨fun fd => decode_fv (i := .fxSetrep fd) rfl, fun fd s h => ?_, fun _ _ h => if_pos h⟩
  obtain ⟨x, hstore, hfields⟩ := setterClosedForm s fd s.opA
  exact ⟨x, (exec_fxSetrep_valid h).trans (congrArg _ hstore), hfields⟩

/-! ## The round trip -/

/-- FX.STR of a register just written answers the digits of what was written. -/
theorem exec_fxStr_store (s : State) (fd : Reg) (x : FxVal s.build.N s.build.W) (r : Response s.build.W) :
    exec (.fxStr fd) (s.store fd x r) =
      .next ((s.store fd x r).answer (zext s.build.W (Fx.intField x.packed)) (Fx.fracDigits s.build.W x.packed) x.sign) := by
  have hx : (s.store fd x r).freg fd = x := freg_store_self s fd x r
  have hvalid : (s.store fd x r).valid fd = true := by simp
  rw [exec_fxStr_eq, fxRead_of_valid hvalid, State.intDigits, State.fracDigits, hx]
  rfl

/-- The integer part comes back as it was given (R139). -/
theorem Fx.intField_encodeDecimal {n w : Nat} (hw : n ≤ w) (sg : Bool) {a b : Word w} (ha : a.toNat < 2 ^ n)
    (hb : b.toNat < 10 ^ n) : zext w (intField (encodeDecimal n sg a b).packed) = a := by
  obtain ⟨hint, -, -⟩ := encodeDecimal_consistent sg a b (decimalLegal_iff.2 ⟨ha, hb⟩)
  apply BitVec.eq_of_toNat_eq
  rw [zext_toNat hw, intField_toNat, ← hint]
  rfl

/-- The fraction comes back as its truncated bits, in units of `10^-n` (R139). -/
theorem Fx.fracDigits_encodeDecimal {n w : Nat} (hw : 4 * n ≤ w) (sg : Bool) {a b : Word w} (ha : a.toNat < 2 ^ n)
    (hb : b.toNat < 10 ^ n) : (fracDigits w (encodeDecimal n sg a b).packed).toNat = fracBits n b.toNat * 5 ^ n := by
  obtain ⟨-, -, hfrac⟩ := encodeDecimal_consistent sg a b (decimalLegal_iff.2 ⟨ha, hb⟩)
  rw [fracDigits_toNat hw, hfrac, fracBits_eq hb]
  rfl

/-- Settles O44: FX.STR reads the very fields FX.ENC packed, and only the fraction was truncated. -/
theorem encodeThenStringRoundTrip : Obligations.EncodeThenStringRoundTrip := by
  intro s fd sg ha hb
  have hwide := two_mul_N_lt_W s.build
  have hloss := Fx.fracBits_readback hb
  rw [← Fx.fracDigits_encodeDecimal s.build.wide sg ha hb] at hloss
  refine ⟨Fx.encodeDecimal s.build.N sg s.opA s.opB, receiverResponse (Fx.encodeDecimal s.build.N sg s.opA s.opB),
    Fx.fracDigits s.build.W (Fx.encodeDecimal s.build.N sg s.opA s.opB).packed, exec_fxEnc_legal ha hb, ?_, hloss⟩
  rw [exec_fxStr_store, Fx.intField_encodeDecimal (by omega) sg ha hb, ← Flags.encodedSign_eq]
  rfl

end Sys2Proof.Machine
end

section
/-! The characters of the string (spec/44_fx_codec.md R137). -/

namespace Sys2Proof.Machine.HostSide

theorem fixedDigits_length : ∀ n m : Nat, (fixedDigits n m).length = n
  | 0, _ => rfl
  | n + 1, m => by rw [fixedDigits, List.length_append, fixedDigits_length n]; rfl

theorem isDigit_of_mem_fixedDigits {c : Char} : ∀ {n m : Nat}, c ∈ fixedDigits n m → c.isDigit = true
  | n + 1, m, h => by
    rw [fixedDigits, List.mem_append, List.mem_singleton] at h
    obtain h | rfl := h
    · exact isDigit_of_mem_fixedDigits h
    · rw [Nat.isDigit_digitChar, decide_eq_true (Nat.mod_lt m (by decide))]

/-- Reading the digits back, most significant first, gives the number: the last digit is its remainder by ten, the ones before it
spell the quotient. -/
theorem foldl_fixedDigits : ∀ n m : Nat, m < 10 ^ n →
    (fixedDigits n m).foldl (fun acc c => 10 * acc + (c.toNat - 48)) 0 = m
  | 0, m, h => (Nat.lt_one_iff.1 h).symm
  | n + 1, m, h => by
    have hquot : m / 10 < 10 ^ n := Nat.div_lt_of_lt_mul (by rwa [pow_succ'] at h)
    rw [fixedDigits, List.foldl_append, foldl_fixedDigits n _ hquot, List.foldl_cons, List.foldl_nil,
      Nat.toNat_digitChar_sub_48_of_lt_ten (Nat.mod_lt m (by decide)), Nat.div_add_mod]

/-- Settles O57: one digit character for each place, the remainder by ten last. -/
theorem stringFractionHasNDigits : Obligations.StringFractionHasNDigits :=
  fun n m h => ⟨fixedDigits_length n m, fun _ => isDigit_of_mem_fixedDigits, foldl_fixedDigits n m h⟩

end Sys2Proof.Machine.HostSide
end

section
/-! What the fixed-point operators are made of: shifts of words as integer operations (spec/00_scope.md R8), the setter on a wrapped
integer (spec/44_fx_codec.md R133, R134), and the shared shapes of the operators (spec/45_fx_operators.md R145). -/

namespace Sys2Proof.Machine

/-! ## Shifts of words, as integers -/

theorem wrap_two_pow (w k : Nat) : wrap w (2 ^ k) = BitVec.twoPow w k := by
  apply BitVec.eq_of_toNat_eq
  rw [BitVec.toNat_twoPow, show (2 : Int) ^ k = (2 ^ k : Nat) from (Nat.cast_pow 2 k).symm, wrap, BitVec.ofInt_natCast,
    BitVec.toNat_ofNat]

/-- A left shift multiplies by a power of two, wrapping (R8). -/
theorem Kernel.shl_wrap (w : Nat) (z : Int) (k : Nat) : shl (wrap w z) k = wrap w (z * 2 ^ k) := by
  rw [shl, BitVec.shiftLeft_eq_mul_twoPow, wrap_mul, wrap_two_pow]

/-- An arithmetic right shift floors by a power of two (R8). -/
theorem Kernel.asr_eq {w : Nat} (x : Word w) (k : Nat) : asr x k = wrap w ((sval x).fdiv (2 ^ k)) := by
  rw [asr, BitVec.sshiftRight_eq, Int.shiftRight_eq_div_pow, Int.fdiv_eq_ediv_of_nonneg _ (by positivity)]
  push_cast
  rfl

theorem natCast_fdiv_two_pow (p k : Nat) : (p : Int).fdiv (2 ^ k) = (p / 2 ^ k : Nat) := by
  rw [Int.ofNat_fdiv, Nat.cast_pow, Nat.cast_ofNat]

/-- Flooring a negative number rounds its magnitude up: the quotient's remainder is what the rounding adds (R153). -/
theorem neg_natCast_fdiv_two_pow (p k : Nat) :
    (-(p : Int)).fdiv (2 ^ k) = -((p + (2 ^ k - 1)) / 2 ^ k : Nat) := by
  have hpos : 0 < 2 ^ k := Nat.two_pow_pos k
  have hdiv := Nat.div_add_mod (p + (2 ^ k - 1)) (2 ^ k)
  have hmod := Nat.mod_lt (p + (2 ^ k - 1)) hpos
  rw [show (2 : Int) ^ k = (2 ^ k : Nat) from (Nat.cast_pow 2 k).symm]
  generalize 2 ^ k = m at *
  refine ((Int.fdiv_fmod_unique (r := (m - 1 - (p + (m - 1)) % m : Nat)) (by omega)).2 ⟨?_, by omega, by omega⟩).1
  rw [mul_neg, ← Nat.cast_mul]
  omega

/-- Rounding a quotient up does not exceed the dividend. -/
theorem roundUp_le {p m : Nat} (hm : 0 < m) : (p + (m - 1)) / m ≤ p := by
  have hp : p ≤ m * p := Nat.le_mul_of_pos_left p hm
  exact Nat.lt_succ_iff.1 (Nat.div_lt_of_lt_mul (by rw [Nat.mul_succ]; omega))

/-! ## Wrapped integers -/

theorem sval_wrap_of_fits {w : Nat} {z : Int} (hw : 0 < w) (hz : z.natAbs < 2 ^ (w - 1)) : sval (wrap w z) = z := by
  have hcast : (2 : Int) ^ (w - 1) = (2 ^ (w - 1) : Nat) := (Nat.cast_pow 2 _).symm
  exact BitVec.toInt_ofInt_eq_self hw (by omega) (by omega)

/-- An integer of at most one bit more than a packed integer is not changed by wrapping (R5). -/
theorem sval_wrap_of_lt {b : Build} {z : Int} (hz : z.natAbs < 2 * 2 ^ (2 * b.N)) : sval (wrap b.W z) = z := by
  have hN : 1 ≤ b.N := by rw [Build.N]; cases b.variant <;> decide
  have hwide : 4 * b.N ≤ b.W := b.wide
  refine sval_wrap_of_fits (by omega) (hz.trans_le ?_)
  rw [← pow_succ']
  exact Nat.pow_le_pow_right (by decide) (by omega)

/-- Wrapping keeps trailing zero bits. -/
theorem two_pow_dvd_sval_wrap {w m : Nat} {z : Int} (hm : m ≤ w) (hz : 2 ^ m ∣ z) : 2 ^ m ∣ sval (wrap w z) := by
  have hwrap : ((2 ^ w : Nat) : Int) ∣ sval (wrap w z) - z := by
    rw [sval, BitVec.toInt_ofInt]; exact Int.dvd_bmod_sub_self
  have hpow : (2 : Int) ^ m ∣ (2 ^ w : Nat) := by push_cast; exact pow_dvd_pow 2 hm
  exact (dvd_sub_left hz).1 (hpow.trans hwrap)

/-! ## The number of a register -/

theorem natAbs_scaled_lt {n w : Nat} (x : FxVal n w) : x.scaled.natAbs < 2 ^ (2 * n) := by
  rw [natAbs_scaled]; exact x.packed.isLt

theorem scaled_eq_zero_iff {n w : Nat} (x : FxVal n w) : x.scaled = 0 ↔ x.packed = 0 := by
  rw [← Int.natAbs_eq_zero, natAbs_scaled, ← BitVec.toNat_inj]
  simp

theorem sign_of_scaled_neg {n w : Nat} {x : FxVal n w} (h : x.scaled < 0) : x.sign = true := by
  unfold FxVal.scaled at h
  split_ifs at h with hsign
  · exact hsign
  · omega

/-- Flooring the number of a register rounds the packed integer down, or up when the sign is 1 (R153). -/
theorem natAbs_scaled_fdiv {n w : Nat} (x : FxVal n w) (k : Nat) :
    (x.scaled.fdiv (2 ^ k)).natAbs =
      if x.sign = true then (x.packed.toNat + (2 ^ k - 1)) / 2 ^ k else x.packed.toNat / 2 ^ k := by
  unfold FxVal.scaled
  split_ifs
  · rw [neg_natCast_fdiv_two_pow, Int.natAbs_neg, Int.natAbs_natCast]
  · rw [natCast_fdiv_two_pow, Int.natAbs_natCast]

theorem natAbs_scaled_fdiv_le {n w : Nat} (x : FxVal n w) (k : Nat) : (x.scaled.fdiv (2 ^ k)).natAbs ≤ x.packed.toNat := by
  rw [natAbs_scaled_fdiv]
  split_ifs
  · exact roundUp_le (Nat.two_pow_pos k)
  · exact Nat.div_le_self _ _

theorem State.view_eq (s : State) (i : Reg) : s.view i = wrap s.build.W (s.freg i).scaled :=
  (viewIsTheSignedPackedInteger s i).1

theorem State.sval_view (s : State) (i : Reg) : sval (s.view i) = (s.freg i).scaled :=
  (viewIsTheSignedPackedInteger s i).2

/-! ## The setter -/

theorem Fx.assign_sign_eq {n w : Nat} (old : FxVal n w) (v : Word w) :
    (assign old v).sign = (old.sign || decide (sval v < 0)) := by
  rw [assign_sign, BitVec.msb_eq_toInt]

theorem Fx.assign_packed_toNat {n w : Nat} (old : FxVal n w) (v : Word w) :
    (assign old v).packed.toNat = (sval v).natAbs % 2 ^ (2 * n) := by
  rw [assign_packed, BitVec.toNat_setWidth, Kernel.mag_toNat]

/-- Assigning a word that fits the packed integer stores its magnitude, under the merged sign (R133, R134). -/
theorem Fx.assign_scaled {n w : Nat} (old : FxVal n w) {v : Word w} (hfit : (sval v).natAbs < 2 ^ (2 * n)) :
    (assign old v).scaled =
      if old.sign = true ∨ sval v < 0 then -((sval v).natAbs : Int) else (sval v).natAbs := by
  rw [FxVal.scaled, assign_sign_eq, assign_packed_toNat, Nat.mod_eq_of_lt hfit]
  simp only [Bool.or_eq_true, decide_eq_true_eq]

/-- Where the merged sign is that of the word, the word itself is stored (R145). -/
theorem Fx.assign_scaled_eq_sval {n w : Nat} {old : FxVal n w} {v : Word w} (hfit : (sval v).natAbs < 2 ^ (2 * n))
    (hsign : old.sign = false ∨ sval v < 0) : (assign old v).scaled = sval v := by
  rw [assign_scaled old hfit]
  split_ifs with hmerged
  · have hneg : sval v < 0 := hmerged.elim (fun hold => hsign.resolve_left (by simp [hold])) id
    omega
  · obtain ⟨-, hpos⟩ := not_or.1 hmerged
    omega

theorem sign_assignReceiver (s : State) (d : Reg) (v : Word s.build.W) :
    ((s.assignReceiver d v).freg d).sign = ((s.freg d).sign || decide (sval v < 0)) :=
  (congrArg FxVal.sign (freg_assignReceiver_self s d v)).trans (Fx.assign_sign_eq _ v)

theorem packed_assignReceiver (s : State) (d : Reg) (v : Word s.build.W) :
    ((s.assignReceiver d v).freg d).packed.toNat = (sval v).natAbs % 2 ^ (2 * s.build.N) :=
  (congrArg (fun x => x.packed.toNat) (freg_assignReceiver_self s d v)).trans (Fx.assign_packed_toNat _ v)

theorem scaled_assignReceiver (s : State) (d : Reg) (v : Word s.build.W) :
    ((s.assignReceiver d v).freg d).scaled = (Fx.assign (s.freg d) v).scaled :=
  congrArg FxVal.scaled (freg_assignReceiver_self s d v)

/-- A number the word holds, negative only over a negative receiver, keeps the receiver's sign; the low `2N` bits of its magnitude
are stored (R133, R134). -/
theorem keeps_sign_of_assigns {o : Host.Outcome State Fault Refusal} {s : State} {d : Reg} {z : Int} {m : Nat}
    (ho : o = .next (s.assignReceiver d (wrap s.build.W z))) (hsval : sval (wrap s.build.W z) = z)
    (hneg : z < 0 → (s.freg d).scaled < 0) (hm : z.natAbs % 2 ^ (2 * s.build.N) = m) :
    ∃ t, o = .next t ∧ (t.freg d).sign = (s.freg d).sign ∧ (t.freg d).packed.toNat = m := by
  refine ⟨_, ho, ?_, ?_⟩
  · rw [sign_assignReceiver, hsval]
    by_cases hz : z < 0
    · rw [sign_of_scaled_neg (hneg hz), Bool.true_or]
    · rw [decide_eq_false hz, Bool.or_false]
  · rw [packed_assignReceiver, hsval, hm]

/-! ## The shapes of the operators -/

/-- The check of two registers lets valid ones pass (R145). -/
theorem checked_of_valid {fd fs : Reg} {s : State} (hd : s.valid fd = true) (hs : s.valid fs = true)
    (o p : Host.Outcome State Fault Refusal) :
    (if s.valid fd = false then o else if s.valid fs = false then o else p) = p := by
  rw [if_neg (by simp [hd]), if_neg (by simp [hs])]

theorem checked_of_invalid {fd fs : Reg} {s : State} (h : s.valid fd = false ∨ s.valid fs = false)
    (o p : Host.Outcome State Fault Refusal) :
    (if s.valid fd = false then o else if s.valid fs = false then o else p) = o := by
  rcases h with hd | hs
  · rw [if_pos hd]
  · rw [if_pos hs, ite_self]

/-- A two-register operator on valid registers fails when its function has no value (R145). -/
theorem fxBinary_none {fd fs : Reg} {s : State} {f : Word s.build.W → Word s.build.W → Option (Word s.build.W)}
    (hd : s.valid fd = true) (hs : s.valid fs = true) (hf : f (s.view fd) (s.view fs) = none) :
    fxBinary fd fs s f = .next (s.fail .divideByZero) :=
  (checked_of_valid hd hs _ _).trans (by rw [hf]; rfl)

theorem fxShift_of_legal {fd : Reg} {sh : BitVec 8} {s : State} {f : Word s.build.W → Nat → Word s.build.W}
    (hd : s.valid fd = true) (hsh : sh.toNat < s.build.W) :
    fxShift fd sh s f = .next (s.assignReceiver fd (f (s.view fd) sh.toNat)) := by
  have hlegal : s.shiftLegal sh = true := decide_eq_true hsh
  rw [fxShift, if_neg (by simp [hlegal]), if_neg (by simp [hd])]

theorem fxShift_refused {fd : Reg} {sh : BitVec 8} {s : State} {f : Word s.build.W → Nat → Word s.build.W}
    (h : s.valid fd = false ∨ s.build.W ≤ sh.toNat) : fxShift fd sh s f = .next (s.fail .refused) := by
  rcases h with hd | hsh
  · rw [fxShift, if_pos hd]
    exact ite_self _
  · exact if_pos (decide_eq_false (not_lt.2 hsh))

end Sys2Proof.Machine
end

section
/-! The fixed-point operators against their rules (spec/45_fx_operators.md R145 to R157): the integer each of them puts through the
setter, and what is left in the receiver. -/

namespace Sys2Proof.Machine

/-- The word of a command of format FS (R54). -/
theorem decode_fs {i : Instr} {fd : Reg} {sh : BitVec 8} (h : encode i = wordOf i.opcode (regBits fd) 0#4 sh false) :
    decode (BitVec.ofNat 32 (i.opcode.toNat + fd.val * 2 ^ 8 + sh.toNat * 2 ^ 16)) = .ok i :=
  decode_of_encode_eq (by simp [h, wordOf_eq_ofNat])

/-! ## What each command runs, as a word operation -/

theorem exec_fxAdd_eq (fd fs : Reg) (s : State) :
    exec (.fxAdd fd fs) s = fxBinary fd fs s fun a b => some (a + b) := by
  simp only [← Kernel.add_eq]; rfl

theorem exec_fxSub_eq (fd fs : Reg) (s : State) :
    exec (.fxSub fd fs) s = fxBinary fd fs s fun a b => some (a - b) := by
  simp only [← Kernel.sub_eq]; rfl

theorem exec_fxMul_eq (fd fs : Reg) (s : State) :
    exec (.fxMul fd fs) s = fxBinary fd fs s fun a b => some (Kernel.asr (a * b) s.build.N) := by
  simp only [← Kernel.mul_eq]; rfl

theorem exec_fxAnd_eq (fd fs : Reg) (s : State) :
    exec (.fxAnd fd fs) s = fxBinary fd fs s fun a b => some (a &&& b) := rfl

theorem exec_fxXor_eq (fd fs : Reg) (s : State) :
    exec (.fxXor fd fs) s = fxBinary fd fs s fun a b => some (a ^^^ b) := rfl

theorem exec_fxShl_eq (fd : Reg) (sh : BitVec 8) (s : State) : exec (.fxShl fd sh) s = fxShift fd sh s Kernel.shl := rfl

theorem exec_fxShr_eq (fd : Reg) (sh : BitVec 8) (s : State) : exec (.fxShr fd sh) s = fxShift fd sh s Kernel.asr := rfl

theorem exec_fxDiv_narrow {s : State} (hvar : s.build.variant = .n16) (fd fs : Reg) :
    exec (.fxDiv fd fs) s = fxDivNarrow fd fs s := by
  rw [exec, execFxDiv, hvar]

theorem exec_fxDiv_wide {s : State} (hvar : s.build.variant = .n32) (fd fs : Reg) :
    exec (.fxDiv fd fs) s = fxDivWide fd fs s := by
  rw [exec, execFxDiv, hvar]

/-! ## The setter's answer -/

/-- Settles O42: under the word's own sign the stored magnitude spells the word again. -/
theorem viewAfterSetter : Obligations.ViewAfterSetter := by
  intro s d v hsign hfit
  have hscaled := Fx.assign_scaled_eq_sval hfit hsign
  refine ⟨Fx.assign (s.freg d) v, ?_, hscaled⟩
  rw [State.assignReceiver, storeReceiver_eq, hscaled, wrap_sval, Fx.assign_sign_eq]

/-! ## Add, subtract, and, xor, multiply -/

/-- Settles O45: the sum of the views wraps the sum of the numbers. -/
theorem fxAddOperator : Obligations.FxAddOperator := by
  refine ⟨fun fd fs => decode_fr (i := .fxAdd fd fs) rfl, fun fd fs s hd hs => ?_, fun fd fs s h => ?_⟩
  · rw [exec_fxAdd_eq, fxBinary_some hd hs rfl, wrap_add, State.view_eq, State.view_eq]
  · rw [exec_fxAdd_eq, fxBinary_refused h]

/-- Settles O46: the difference of the views wraps the difference of the numbers. -/
theorem fxSubOperator : Obligations.FxSubOperator := by
  refine ⟨fun fd fs => decode_fr (i := .fxSub fd fs) rfl, fun fd fs s hd hs => ?_, fun fd fs s h => ?_⟩
  · rw [exec_fxSub_eq, fxBinary_some hd hs rfl, wrap_sub, State.view_eq, State.view_eq]
  · rw [exec_fxSub_eq, fxBinary_refused h]

/-- Settles O47: the bitwise primitive itself, on the two views. -/
theorem fxAndOperator : Obligations.FxAndOperator := by
  refine ⟨fun fd fs => decode_fr (i := .fxAnd fd fs) rfl, fun fd fs s hd hs => ?_, fun fd fs s h => ?_⟩
  · rw [exec_fxAnd_eq, fxBinary_some hd hs rfl]
  · rw [exec_fxAnd_eq, fxBinary_refused h]

/-- Settles O48: the bitwise primitive itself, on the two views. -/
theorem fxXorOperator : Obligations.FxXorOperator := by
  refine ⟨fun fd fs => decode_fr (i := .fxXor fd fs) rfl, fun fd fs s hd hs => ?_, fun fd fs s h => ?_⟩
  · rw [exec_fxXor_eq, fxBinary_some hd hs rfl]
  · rw [exec_fxXor_eq, fxBinary_refused h]

/-- Settles O49: the product of the views wraps the product of the numbers, and the arithmetic shift floors its signed value. -/
theorem fxMulOperator : Obligations.FxMulOperator := by
  refine ⟨fun fd fs => decode_fr (i := .fxMul fd fs) rfl, fun fd fs s hd hs => ?_, fun fd fs s h => ?_⟩
  · rw [exec_fxMul_eq, fxBinary_some hd hs rfl, Kernel.asr_eq, wrap_mul, State.view_eq, State.view_eq]
  · rw [exec_fxMul_eq, fxBinary_refused h]

/-! ## Divide -/

theorem exec_fxDiv_of_packed_zero {fd fs : Reg} {s : State} (hd : s.valid fd = true) (hs : s.valid fs = true)
    (hzero : (s.freg fs).packed = 0) : exec (.fxDiv fd fs) s = .next (s.fail .divideByZero) := by
  cases hvar : s.build.variant with
  | n16 =>
    have hview : s.view fs = 0 := by rw [State.view_eq, (scaled_eq_zero_iff _).2 hzero]; rfl
    rw [exec_fxDiv_narrow hvar]
    exact fxBinary_none hd hs (by rw [hview, Kernel.divide_zero, Option.map_none])
  | n32 =>
    rw [exec_fxDiv_wide hvar]
    exact (checked_of_valid hd hs _ _).trans (if_pos hzero)

theorem exec_fxDiv_of_invalid {fd fs : Reg} {s : State} (h : s.valid fd = false ∨ s.valid fs = false) :
    exec (.fxDiv fd fs) s = .next (s.fail .refused) := by
  cases hvar : s.build.variant with
  | n16 => exact (exec_fxDiv_narrow hvar fd fs).trans (fxBinary_refused h)
  | n32 => exact (exec_fxDiv_wide hvar fd fs).trans (checked_of_invalid h _ _)

/-- Settles O50: at `N = 16` the divider floors the quotient of the views and the shift rescales it; a divisor of packed integer 0
and an invalid register fail on both variants. -/
theorem fxDivOperator : Obligations.FxDivOperator := by
  refine ⟨fun fd fs => decode_fr (i := .fxDiv fd fs) rfl, fun fd fs s hvar hd hs hne => ?_,
    fun _ _ _ hd hs hzero => exec_fxDiv_of_packed_zero hd hs hzero, fun _ _ _ h => exec_fxDiv_of_invalid h⟩
  have hdivisor : (s.freg fs).scaled ≠ 0 := mt (scaled_eq_zero_iff _).1 hne
  rw [exec_fxDiv_narrow hvar]
  refine fxBinary_some hd hs ?_
  rw [Kernel.divide_of_sval (s.sval_view fd) (s.sval_view fs) hdivisor, Option.map_some, Kernel.shl_wrap]

/-- Settles O51: past the checks, the open value is stored and the receiver returned. -/
theorem fxDivWideStoresTheOpenValue : Obligations.FxDivWideStoresTheOpenValue := by
  intro fd fs s hvar hd hs hne x
  rw [exec_fxDiv_wide hvar, ← storeReceiver_eq]
  exact (checked_of_valid hd hs _ _).trans (if_neg hne)

/-! ## Shifts -/

/-- Settles O52: shifting the view left multiplies the number it wraps. -/
theorem fxShlOperator : Obligations.FxShlOperator := by
  refine ⟨fun fd sh => decode_fs (i := .fxShl fd sh) rfl, fun fd sh s hd hsh => ?_, fun fd sh s h => ?_⟩
  · rw [exec_fxShl_eq, fxShift_of_legal hd hsh, State.view_eq, Kernel.shl_wrap]
  · rw [exec_fxShl_eq, fxShift_refused h]

/-- Settles O53: shifting the view right floors its signed value, which is the number itself. -/
theorem fxShrOperator : Obligations.FxShrOperator := by
  refine ⟨fun fd sh => decode_fs (i := .fxShr fd sh) rfl, fun fd sh s hd hsh => ?_, fun fd sh s h => ?_⟩
  · rw [exec_fxShr_eq, fxShift_of_legal hd hsh, Kernel.asr_eq, State.sval_view]
  · rw [exec_fxShr_eq, fxShift_refused h]

/-- A left shift below `W - 2N` stays inside the word (R152). -/
theorem sval_wrap_shl_of_lt {b : Build} (x : FxVal b.N b.W) {k : Nat} (hk : k < b.W - 2 * b.N) :
    sval (wrap b.W (x.scaled * 2 ^ k)) = x.scaled * 2 ^ k := by
  refine sval_wrap_of_fits (by omega) ?_
  rw [Int.natAbs_mul, Int.natAbs_pow]
  calc x.scaled.natAbs * 2 ^ k < 2 ^ (2 * b.N) * 2 ^ k := Nat.mul_lt_mul_of_pos_right (natAbs_scaled_lt x) (by positivity)
    _ = 2 ^ (2 * b.N + k) := (pow_add 2 _ k).symm
    _ ≤ 2 ^ (b.W - 1) := Nat.pow_le_pow_right (by decide) (by omega)

/-- A left shift of at least `2N` leaves none of the packed integer's bits, whatever the word wraps to (R152). -/
theorem natAbs_sval_wrap_shl_of_ge {b : Build} (z : Int) {k : Nat} (hk : 2 * b.N ≤ k) :
    (sval (wrap b.W (z * 2 ^ k))).natAbs % 2 ^ (2 * b.N) = 0 := by
  have hdvd : (2 : Int) ^ (2 * b.N) ∣ z * 2 ^ k := (pow_dvd_pow 2 hk).mul_left z
  have hword := Int.natAbs_dvd_natAbs.2 (two_pow_dvd_sval_wrap (two_mul_N_lt_W b).le hdvd)
  rw [Int.natAbs_pow] at hword
  exact Nat.mod_eq_zero_of_dvd hword

/-- A left shift keeps the low `2N` bits of the shifted packed integer, and below `W - 2N` the sign (R152). -/
theorem exec_fxShl_packed {fd : Reg} {sh : BitVec 8} {s : State} (hd : s.valid fd = true) (hsh : sh.toNat < s.build.W) :
    ∃ t, exec (.fxShl fd sh) s = .next t ∧
      (t.freg fd).packed.toNat = (s.freg fd).packed.toNat * 2 ^ sh.toNat % 2 ^ (2 * s.build.N) ∧
      (sh.toNat < s.build.W - 2 * s.build.N → (t.freg fd).sign = (s.freg fd).sign) := by
  obtain ⟨-, hshl, -⟩ := fxShlOperator
  have hexec := hshl fd sh s hd hsh
  by_cases hlow : sh.toNat < s.build.W - 2 * s.build.N
  · have hmag : ((s.freg fd).scaled * 2 ^ sh.toNat).natAbs = (s.freg fd).packed.toNat * 2 ^ sh.toNat := by
      rw [Int.natAbs_mul, natAbs_scaled, Int.natAbs_pow]; rfl
    have hneg : (s.freg fd).scaled * 2 ^ sh.toNat < 0 → (s.freg fd).scaled < 0 := fun h =>
      neg_of_mul_neg_left h (by positivity)
    obtain ⟨t, ht, hsign, hpacked⟩ :=
      keeps_sign_of_assigns hexec (sval_wrap_shl_of_lt (s.freg fd) hlow) hneg (by rw [hmag])
    exact ⟨t, ht, hpacked, fun _ => hsign⟩
  · have hwide : 4 * s.build.N ≤ s.build.W := s.build.wide
    have hhigh : 2 * s.build.N ≤ sh.toNat := by omega
    refine ⟨_, hexec, ?_, fun h => absurd h hlow⟩
    rw [packed_assignReceiver, natAbs_sval_wrap_shl_of_ge _ hhigh]
    exact (Nat.mod_eq_zero_of_dvd ((pow_dvd_pow 2 hhigh).mul_left _)).symm

/-- Settles O54: a left shift stays inside the word or leaves no bit of the packed integer; flooring makes no magnitude larger, and
gives a negative number only from a negative one. -/
theorem shiftsOfThePackedInteger : Obligations.ShiftsOfThePackedInteger := by
  intro fd sh s hd hsh
  refine ⟨exec_fxShl_packed hd hsh, ?_⟩
  obtain ⟨-, hshr, -⟩ := fxShrOperator
  have hle := natAbs_scaled_fdiv_le (s.freg fd) sh.toNat
  have hlt := (s.freg fd).packed.isLt
  have hneg : (s.freg fd).scaled.fdiv (2 ^ sh.toNat) < 0 → (s.freg fd).scaled < 0 := fun h =>
    not_le.1 fun hnonneg => absurd h (not_lt.2 (Int.fdiv_nonneg hnonneg (by positivity)))
  refine keeps_sign_of_assigns (hshr fd sh s hd hsh) (sval_wrap_of_lt (by omega)) hneg ?_
  rw [Nat.mod_eq_of_lt (by omega), natAbs_scaled_fdiv]

/-! ## Addition in range -/

/-- Settles O55: a sum in range is not changed by wrapping, and the setter stores its magnitude under the merged sign. -/
theorem fxAddInRange : Obligations.FxAddInRange := by
  obtain ⟨-, hadd, -⟩ := fxAddOperator
  intro fd fs s hd hs sum hrange
  have hsval : sval (wrap s.build.W sum) = sum := sval_wrap_of_lt (by omega)
  have hfit : (sval (wrap s.build.W sum)).natAbs < 2 ^ (2 * s.build.N) := by rwa [hsval]
  refine ⟨_, hadd fd fs s hd hs, fun hsign => ?_, fun hsign => ?_⟩
  · rw [← hsval] at hsign
    exact (scaled_assignReceiver s fd _).trans ((Fx.assign_scaled_eq_sval hfit hsign).trans hsval)
  · rw [scaled_assignReceiver, Fx.assign_scaled _ hfit, if_pos (.inl hsign), hsval]

/-! ## The same register twice -/

/-- Settles O56: of the numbers assigned, `2x`, 0, 0, `x` and `2^N`, only `2x` and `x` can be negative, and only when `x` is. -/
theorem sameRegisterTwice : Obligations.SameRegisterTwice := by
  obtain ⟨-, hadd, -⟩ := fxAddOperator
  obtain ⟨-, hsub, -⟩ := fxSubOperator
  obtain ⟨-, hxor, -⟩ := fxXorOperator
  obtain ⟨-, hand, -⟩ := fxAndOperator
  obtain ⟨-, hdiv, -⟩ := fxDivOperator
  intro f s hf
  have hlt := natAbs_scaled_lt (s.freg f)
  have hmag := natAbs_scaled (s.freg f)
  have hzero : (0 : Int).natAbs < 2 * 2 ^ (2 * s.build.N) := by positivity
  refine ⟨?_, ?_, ?_, ?_, fun hvar hne => ?_⟩
  · refine keeps_sign_of_assigns (hadd f f s hf hf) (sval_wrap_of_lt (by omega)) (by omega) ?_
    congr 1
    omega
  · have hexec := hsub f f s hf hf
    rw [sub_self] at hexec
    exact keeps_sign_of_assigns hexec (sval_wrap_of_lt hzero) (by omega) (Nat.zero_mod _)
  · have hexec := hxor f f s hf hf
    rw [BitVec.xor_self] at hexec
    exact keeps_sign_of_assigns (z := 0) hexec (sval_wrap_of_lt hzero) (by omega) (Nat.zero_mod _)
  · have hexec := hand f f s hf hf
    rw [BitVec.and_self, State.view_eq] at hexec
    exact keeps_sign_of_assigns hexec (sval_wrap_of_lt (by omega)) id (by rw [Nat.mod_eq_of_lt hlt, hmag])
  · have hexec := hdiv f f s hvar hf hf hne
    rw [Int.fdiv_self (mt (scaled_eq_zero_iff _).1 hne), one_mul] at hexec
    have hN : s.build.N = 16 := by rw [Build.N, hvar]; rfl
    have hfit : ((2 : Int) ^ s.build.N).natAbs < 2 ^ (2 * s.build.N) := by rw [hN]; decide
    refine keeps_sign_of_assigns hexec (sval_wrap_of_lt (by omega)) (fun h => absurd h (not_lt.2 (by positivity))) ?_
    rw [Nat.mod_eq_of_lt hfit, Int.natAbs_pow]
    rfl

end Sys2Proof.Machine
end

section
/-! The outcomes of a command against the rules that give their causes (spec/60_exceptions.md R165 to R168, R171): when each shape
of command fails, and from that, once over every command, the status it fails with. -/

namespace Sys2Proof.Machine

/-- Settles O16: one code per status. -/
theorem statusCodes : Obligations.StatusCodes := by
  refine ⟨rfl, rfl, rfl, fun st => ?_⟩
  cases st <;> decide

/-! ## The status of the last response -/

/-- The status the host sees last (R52). -/
def State.lastStatus (s : State) : Option Status := s.responses.getLast?.map Response.status

@[simp] theorem lastStatus_fail (s : State) (st : Status) : (s.fail st).lastStatus = some st := by
  simp [State.lastStatus, State.fail]

theorem lastStatus_respond (s : State) (r : Response s.build.W) : (s.respond r).lastStatus = some r.status := by
  simp [State.lastStatus]

theorem lastStatus_store (s : State) (d : Reg) (x : FxVal s.build.N s.build.W) (r : Response s.build.W) :
    (s.store d x r).lastStatus = some r.status := by
  simp [State.lastStatus]

/-- Failures with different statuses are different outcomes (R165). -/
theorem fail_inj {s : State} {st st' : Status} : s.fail st = s.fail st' ↔ st' = st :=
  ⟨fun h => by simpa using congrArg State.lastStatus h.symm, fun h => congrArg s.fail h.symm⟩

/-- A command that is answered OK has not failed (R165). -/
theorem ne_fail_of_ok {s t : State} {st : Status} (hst : st ≠ .ok) (ht : t.lastStatus = some .ok) : t ≠ s.fail st := by
  rintro rfl
  exact hst (by simpa using ht)

/-! ## When each shape of command fails -/

theorem Kernel.divide_eq_none_iff {w : Nat} (a b : Word w) : divide a b = none ↔ b = 0 := by
  by_cases hb : b = 0
  · rw [hb, divide_zero]
    exact iff_of_true rfl rfl
  · rw [divide_eq a hb]
    exact iff_of_false nofun hb

theorem Kernel.modulo_eq_none_iff {w : Nat} (a b : Word w) : modulo a b = none ↔ b = 0 := by
  rw [modulo, Option.map_eq_none_iff, divide_eq_none_iff]

/-- FX.DIV past its checks completes on both variants, whatever it stores (R151, R156). -/
theorem exec_fxDiv_completes {fd fs : Reg} {s : State} (hd : s.valid fd = true) (hs : s.valid fs = true)
    (hne : (s.freg fs).packed ≠ 0) : ∃ t, exec (.fxDiv fd fs) s = .next t ∧ t.lastStatus = some .ok := by
  cases hvar : s.build.variant with
  | n16 =>
    obtain ⟨-, hassign, -⟩ := fxDivOperator
    exact ⟨_, hassign fd fs s hvar hd hs hne, lastStatus_store s _ _ _⟩
  | n32 => exact ⟨_, fxDivWideStoresTheOpenValue fd fs s hvar hd hs hne, lastStatus_store s _ _ _⟩

section Failing
variable {s : State} {st : Status} (hst : st ≠ .ok)
include hst

theorem answerKernel_eq_fail_iff (r : Option (Word s.build.W)) :
    answerKernel s r = .next (s.fail st) ↔ r = none ∧ st = .divideByZero := by
  cases r with
  | none => simp [answerKernel, fail_inj]
  | some x =>
    have hok : s.answer x ≠ s.fail st := ne_fail_of_ok hst (lastStatus_respond s _)
    simpa [answerKernel] using hok

/-- A command with one check fails exactly when the check does. -/
theorem checked_eq_fail_iff {p : Prop} [Decidable p] {t : State} (ht : t.lastStatus = some .ok) :
    (if p then .next (s.fail .refused) else .next t : Host.Outcome State Fault Refusal) = .next (s.fail st) ↔
      p ∧ st = .refused := by
  have hok := ne_fail_of_ok (s := s) hst ht
  split <;> simp [*, fail_inj]

theorem fxRead_eq_fail_iff (fs : Reg) {r : Response s.build.W} (hr : r.status = .ok) :
    fxRead fs s r = .next (s.fail st) ↔ s.valid fs = false ∧ st = .refused :=
  checked_eq_fail_iff hst (by rw [lastStatus_respond, hr])

theorem exec_fxEnc_eq_fail_iff (fd : Reg) (sg : Bool) :
    exec (.fxEnc fd sg) s = .next (s.fail st) ↔
      (2 ^ s.build.N ≤ s.opA.toNat ∨ 10 ^ s.build.N ≤ s.opB.toNat) ∧ st = .refused := by
  refine (checked_eq_fail_iff hst (lastStatus_store s _ _ _)).trans (and_congr_left' ?_)
  rw [← Bool.not_eq_true, State.decimalLegal, Fx.decimalLegal_iff]
  omega

theorem fxShift_eq_fail_iff (fd : Reg) (sh : BitVec 8) (f : Word s.build.W → Nat → Word s.build.W) :
    fxShift fd sh s f = .next (s.fail st) ↔ (s.valid fd = false ∨ s.build.W ≤ sh.toNat) ∧ st = .refused := by
  by_cases hrefused : s.valid fd = false ∨ s.build.W ≤ sh.toNat
  · simp [fxShift_refused hrefused, hrefused, fail_inj]
  · obtain ⟨hd, hsh⟩ := not_or.1 hrefused
    have hok : s.assignReceiver fd (f (s.view fd) sh.toNat) ≠ s.fail st := ne_fail_of_ok hst (lastStatus_store s _ _ _)
    simp [fxShift_of_legal (eq_true_of_ne_false hd) (not_le.1 hsh), hrefused, hok]

/-- A two-register operator whose function always has a value fails for an invalid register alone (R145). -/
theorem fxBinary_eq_fail_iff (fd fs : Reg) {f : Word s.build.W → Word s.build.W → Option (Word s.build.W)}
    (hf : ∀ a b, f a b ≠ none) :
    fxBinary fd fs s f = .next (s.fail st) ↔ (s.valid fd = false ∨ s.valid fs = false) ∧ st = .refused := by
  by_cases hinvalid : s.valid fd = false ∨ s.valid fs = false
  · simp [fxBinary_refused hinvalid, hinvalid, fail_inj]
  · obtain ⟨hd, hs⟩ := not_or.1 hinvalid
    obtain ⟨v, hv⟩ := Option.ne_none_iff_exists'.1 (hf (s.view fd) (s.view fs))
    have hok : s.assignReceiver fd v ≠ s.fail st := ne_fail_of_ok hst (lastStatus_store s _ _ _)
    simp [fxBinary_some (eq_true_of_ne_false hd) (eq_true_of_ne_false hs) hv, hinvalid, hok]

/-- FX.DIV divides by zero only past the check of its registers (R171). -/
theorem exec_fxDiv_eq_fail_iff (fd fs : Reg) :
    exec (.fxDiv fd fs) s = .next (s.fail st) ↔
      (s.valid fd = false ∨ s.valid fs = false) ∧ st = .refused ∨
      (s.valid fd = true ∧ s.valid fs = true ∧ (s.freg fs).packed = 0) ∧ st = .divideByZero := by
  by_cases hinvalid : s.valid fd = false ∨ s.valid fs = false
  · have hpassed : ¬(s.valid fd = true ∧ s.valid fs = true ∧ (s.freg fs).packed = 0) := by
      rintro ⟨hd, hs, -⟩
      simp [hd, hs] at hinvalid
    simp only [exec_fxDiv_of_invalid hinvalid, hinvalid, hpassed, Host.Outcome.next.injEq, fail_inj, true_and, false_and,
      or_false]
  · obtain ⟨hd, hs⟩ := not_or.1 hinvalid
    rw [Bool.not_eq_false] at hd hs
    by_cases hzero : (s.freg fs).packed = 0
    · simp [exec_fxDiv_of_packed_zero hd hs hzero, hd, hs, hzero, fail_inj]
    · obtain ⟨t, hexec, ht⟩ := exec_fxDiv_completes hd hs hzero
      have hdivisor : ¬(s.valid fd = true ∧ s.valid fs = true ∧ (s.freg fs).packed = 0) := fun ⟨_, _, h⟩ => hzero h
      simp only [hexec, Host.Outcome.next.injEq, ne_fail_of_ok hst ht, hinvalid, hdivisor, false_and, or_self]

end Failing

/-! ## The causes -/

/-- The causes of DivideByZero (R166). -/
def State.DividesByZero (s : State) (i : Instr) : Prop :=
  ((i = .div ∨ i = .mod) ∧ s.opB = 0) ∨
    ∃ fd fs, i = .fxDiv fd fs ∧ s.valid fd = true ∧ s.valid fs = true ∧ (s.freg fs).packed = 0

/-- The causes for which a command, once decoded, is refused (R167). -/
def State.Refuses (s : State) (i : Instr) : Prop :=
  (∃ fd sh, (i = .fxShl fd sh ∨ i = .fxShr fd sh) ∧ s.build.W ≤ sh.toNat) ∨
    (∃ fd sg, i = .fxEnc fd sg ∧ (2 ^ s.build.N ≤ s.opA.toNat ∨ 10 ^ s.build.N ≤ s.opB.toNat)) ∨
    ∃ r ∈ i.reads, s.valid r = false

/-- A command fails exactly for these causes, each with its status (R165). -/
theorem exec_eq_fail_iff (i : Instr) {s : State} {st : Status} (hst : st ≠ .ok) :
    exec i s = .next (s.fail st) ↔ s.Refuses i ∧ st = .refused ∨ s.DividesByZero i ∧ st = .divideByZero := by
  cases i
  case add | sub | mul | gcd | pow | neg | inc | dec =>
    refine (answerKernel_eq_fail_iff (s := s) hst (some _)).trans ?_
    simp [State.Refuses, State.DividesByZero, Instr.reads]
  case div =>
    rw [exec_div_eq, answerKernel_eq_fail_iff hst, Kernel.divide_eq_none_iff]
    simp [State.Refuses, State.DividesByZero, Instr.reads]
  case mod =>
    rw [exec_mod_eq, answerKernel_eq_fail_iff hst, Kernel.modulo_eq_none_iff]
    simp [State.Refuses, State.DividesByZero, Instr.reads]
  case fxEnc fd sg =>
    rw [exec_fxEnc_eq_fail_iff hst]
    simp [State.Refuses, State.DividesByZero, Instr.reads]
  case fxCopy fd fs | fxSetrep fd =>
    refine (checked_eq_fail_iff hst (lastStatus_store s _ _ _)).trans ?_
    simp [State.Refuses, State.DividesByZero, Instr.reads]
  case fxGetrep | fxGetfld | fxStr | fxGetmag =>
    refine (fxRead_eq_fail_iff (s := s) hst _ rfl).trans ?_
    simp [State.Refuses, State.DividesByZero, Instr.reads]
  case fxAdd | fxSub | fxMul | fxAnd | fxXor =>
    refine (fxBinary_eq_fail_iff (s := s) hst _ _ fun _ _ => Option.some_ne_none _).trans ?_
    simp [State.Refuses, State.DividesByZero, Instr.reads]
  case fxDiv =>
    rw [exec_fxDiv_eq_fail_iff hst]
    simp [State.Refuses, State.DividesByZero, Instr.reads]
  case fxShl | fxShr =>
    refine (fxShift_eq_fail_iff (s := s) hst _ _ _).trans ?_
    simp [State.Refuses, State.DividesByZero, Instr.reads, or_comm]

/-- Settles O12: the other status a command can fail with is REFUSED. -/
theorem divideByZeroExactlyWhen : Obligations.DivideByZeroExactlyWhen := by
  intro i s
  have hfail := exec_eq_fail_iff i (s := s) (st := .divideByZero) (by decide)
  simpa [State.DividesByZero] using hfail

/-- Settles O13: a word that spells a command is refused for that command's causes, one that spells none always. -/
theorem refusedExactlyWhen : Obligations.RefusedExactlyWhen := by
  intro s c rest hin
  obtain ⟨hmatch, hspells⟩ := decodeIsMaskAndMatch c.cmd
  cases hdec : decode c.cmd with
  | error e =>
    have hbad : ∀ i : Instr, decode c.cmd ≠ .ok i := by simp [hdec]
    exact iff_of_true (step_of_malformed hin hbad) (.inl fun i hi => (hspells ⟨i, hi⟩).elim hbad)
  | ok i =>
    have hstep : step s = exec i (s.accept c rest) := by simp only [step, hin, hdec]
    have hrow : ¬∀ j : Instr, c.cmd &&& j.format.mask ≠ j.opcode.setWidth 32 := fun h => h i (hmatch i hdec)
    rw [hstep, or_iff_right hrow]
    refine (exec_eq_fail_iff i (by decide)).trans ?_
    simp [State.Refuses]

end Sys2Proof.Machine
end

section
/-! What the spec leaves unspecified stays hidden (spec/70_reset_and_hazards.md R180, R191; spec/10_state.md R27, R32;
spec/30_encoding.md R52): a command reads a register only past the check of its valid bit, and its own operand words stand in
place of the old ones, so a state and its disguise run the same way. -/

namespace Sys2Proof.Machine

/-- `s` under a disguise while a command runs: other register contents, other responses and another count of free values. The
operand words are the command's own (R51). -/
def State.disguise (s : State) (g : Vector (FxVal s.build.N s.build.W) NF) (l : List (Response s.build.W)) (k : Nat) : State :=
  { s with f := g, responses := l, draws := k }

/-- Two outcomes between which the host cannot tell: both answer, with states it cannot tell apart. -/
inductive Alike : Host.Outcome State Fault Refusal → Host.Outcome State Fault Refusal → Prop where
  | next {s t : State} (h : s.Indistinguishable t) : Alike (.next s) (.next t)

theorem Alike.congr {o o' p p' : Host.Outcome State Fault Refusal} (ho : o = p) (ho' : o' = p') (h : Alike p p') :
    Alike o o' := by
  rwa [ho, ho']

/-- A check made on both sides alike leaves alike outcomes. -/
theorem Alike.check {p : Prop} [Decidable p] {s t : State} {o o' : Host.Outcome State Fault Refusal}
    (hfail : s.Indistinguishable t) (hpass : ¬p → Alike o o') :
    Alike (if p then .next s else o) (if p then .next t else o') := by
  split
  case isTrue => exact .next hfail
  case isFalse hp => exact hpass hp

/-- Responses are seen alike when the earlier ones are and the new one is. -/
theorem map_seen_append {w : Nat} {l m : List (Response w)} {r r' : Response w}
    (hl : l.map Response.seen = m.map Response.seen) (hr : r.seen = r'.seen) :
    (l ++ [r]).map Response.seen = (m ++ [r']).map Response.seen := by
  simp [hl, hr]

/-- Of a response that is not OK the host sees the status alone (R52). -/
theorem seen_eq_of_not_ok {w : Nat} {r r' : Response w} (hok : r.status ≠ .ok) (h : r'.status = r.status) :
    r'.seen = r.seen := by
  simp [Response.seen, h, hok]

/-- After `rst` only the count of free values may differ (R180). -/
theorem indistinguishable_resetWith (b : Build) (rest : List (HostInput b.W)) (k k' : Nat) :
    (State.resetWith b rest k).Indistinguishable (State.resetWith b rest k') :=
  ⟨_, _, _, _, k', rfl, fun _ _ => rfl, rfl⟩

section Disguised
variable {s : State} {g : Vector (FxVal s.build.N s.build.W) NF} {l : List (Response s.build.W)}
  (hg : ∀ j : Reg, s.valid j = true → g.get j = s.f.get j) (hl : l.map Response.seen = s.responses.map Response.seen) (k : Nat)

/-! ## What a disguise shows -/

include hg in
/-- A disguise shows the valid registers as they are (R27). -/
theorem freg_disguise {j : Reg} (hj : s.valid j = true) : (s.disguise g l k).freg j = s.freg j := hg j hj

include hg in
theorem view_disguise {j : Reg} (hj : s.valid j = true) : (s.disguise g l k).view j = s.view j :=
  congrArg Fx.rep (freg_disguise hg k hj)

/-! ## The ways a command ends -/

include hg hl

theorem fail_disguise {st : Status} (hst : st ≠ .ok) :
    (s.fail st).Indistinguishable ((s.disguise g l k).fail st) :=
  ⟨g, s.opA, s.opB, _, _, rfl, hg, map_seen_append hl (seen_eq_of_not_ok hst rfl)⟩

theorem refuse_disguise (why : RefuseReason) :
    (s.refuse why).Indistinguishable ((s.disguise g l k).refuse why) := fail_disguise hg hl k (by decide)

theorem raiseDivideByZero_disguise :
    s.raiseDivideByZero.Indistinguishable (s.disguise g l k).raiseDivideByZero := fail_disguise hg hl k (by decide)

theorem respond_disguise (r : Response s.build.W) :
    (s.respond r).Indistinguishable ((s.disguise g l k).respond r) :=
  ⟨g, s.opA, s.opB, _, k, rfl, hg, map_seen_append hl rfl⟩

/-- A write shows its value whatever stood in the register, and leaves the others hidden or shown (R29). -/
theorem store_disguise (d : Reg) (x : FxVal s.build.N s.build.W) (r : Response s.build.W) :
    (s.store d x r).Indistinguishable ((s.disguise g l k).store d x r) := by
  refine ⟨g.set d.val x d.isLt, s.opA, s.opB, _, k, rfl, fun j hj => ?_, map_seen_append hl rfl⟩
  change ((s.disguise g l k).store d x r).freg j = (s.store d x r).freg j
  by_cases hjd : j = d
  · subst hjd
    rw [freg_store_self]
    exact freg_store_self (s.disguise g l k) j x r
  · rw [valid_store, decide_eq_false hjd, Bool.false_or] at hj
    rw [freg_store_ne s d j x r hjd, ← freg_disguise hg k hj]
    exact freg_store_ne (s.disguise g l k) d j x r hjd

/-- The setter merges the sign of its receiver, which a valid register shows (R134). -/
theorem assignReceiver_disguise {d : Reg} (hd : s.valid d = true) (v : Word s.build.W) :
    (s.assignReceiver d v).Indistinguishable ((s.disguise g l k).assignReceiver d v) := by
  have hassign : (s.disguise g l k).assignReceiver d v = (s.disguise g l k).storeReceiver d (Fx.assign (s.freg d) v) :=
    congrArg (fun x : FxVal s.build.N s.build.W => (s.disguise g l k).storeReceiver d (Fx.assign x v))
      (freg_disguise hg k hd)
  rw [hassign]
  exact store_disguise hg hl k d _ _

/-! ## The shapes of the commands -/

theorem answerKernel_disguise (r : Option (Word s.build.W)) :
    Alike (answerKernel s r) (answerKernel (s.disguise g l k) r) := by
  cases r with
  | none => exact .next (raiseDivideByZero_disguise hg hl k)
  | some x => exact .next (respond_disguise hg hl k _)

/-- A register is read out only past the check of its valid bit, where a disguise shows it (R27, R43). -/
theorem fxRead_disguise (fs : Reg) (out : FxVal s.build.N s.build.W → Response s.build.W) :
    Alike (fxRead fs s (out (s.freg fs))) (fxRead fs (s.disguise g l k) (out ((s.disguise g l k).freg fs))) := by
  refine .check (refuse_disguise hg hl k _) fun hfs => ?_
  rw [freg_disguise hg k (eq_true_of_ne_false hfs)]
  exact .next (respond_disguise hg hl k _)

theorem fxBinary_disguise (fd fs : Reg) (f : Word s.build.W → Word s.build.W → Option (Word s.build.W)) :
    Alike (fxBinary fd fs s f) (fxBinary fd fs (s.disguise g l k) f) := by
  refine .check (refuse_disguise hg hl k _) fun hfd => .check (refuse_disguise hg hl k _) fun hfs => ?_
  replace hfd := eq_true_of_ne_false hfd
  rw [view_disguise hg k hfd, view_disguise hg k (eq_true_of_ne_false hfs)]
  cases f (s.view fd) (s.view fs) with
  | none => exact .next (raiseDivideByZero_disguise hg hl k)
  | some v => exact .next (assignReceiver_disguise hg hl k hfd v)

theorem fxShift_disguise (fd : Reg) (sh : BitVec 8) (f : Word s.build.W → Nat → Word s.build.W) :
    Alike (fxShift fd sh s f) (fxShift fd sh (s.disguise g l k) f) := by
  refine .check (refuse_disguise hg hl k _) fun _ => .check (refuse_disguise hg hl k _) fun hfd => ?_
  replace hfd := eq_true_of_ne_false hfd
  rw [view_disguise hg k hfd]
  exact .next (assignReceiver_disguise hg hl k hfd _)

/-! ## The commands with a shape of their own -/

theorem execFxEnc_disguise (fd : Reg) (sg : Bool) :
    Alike (execFxEnc fd sg s) (execFxEnc fd sg (s.disguise g l k)) :=
  .check (refuse_disguise hg hl k _) fun _ => .next (store_disguise hg hl k fd _ _)

theorem execFxCopy_disguise (fd fs : Reg) : Alike (execFxCopy fd fs s) (execFxCopy fd fs (s.disguise g l k)) := by
  refine .check (refuse_disguise hg hl k _) fun hfs => ?_
  rw [freg_disguise hg k (eq_true_of_ne_false hfs)]
  exact .next (store_disguise hg hl k fd _ _)

theorem execFxSetrep_disguise (fd : Reg) : Alike (execFxSetrep fd s) (execFxSetrep fd (s.disguise g l k)) :=
  .check (refuse_disguise hg hl k _) fun hfd => .next (assignReceiver_disguise hg hl k (eq_true_of_ne_false hfd) _)

/-- The open value is a function of the two checked registers and of nothing else (R156). -/
theorem fxDivWide_disguise (fd fs : Reg) : Alike (fxDivWide fd fs s) (fxDivWide fd fs (s.disguise g l k)) := by
  refine .check (refuse_disguise hg hl k _) fun hfd => .check (refuse_disguise hg hl k _) fun hfs => ?_
  rw [freg_disguise hg k (eq_true_of_ne_false hfd), freg_disguise hg k (eq_true_of_ne_false hfs)]
  exact .check (raiseDivideByZero_disguise hg hl k) fun _ => .next (store_disguise hg hl k fd _ _)

theorem exec_fxDiv_disguise (fd fs : Reg) : Alike (exec (.fxDiv fd fs) s) (exec (.fxDiv fd fs) (s.disguise g l k)) := by
  cases hvar : s.build.variant with
  | n16 =>
    rw [exec_fxDiv_narrow hvar, exec_fxDiv_narrow (s := s.disguise g l k) hvar]
    exact fxBinary_disguise hg hl k fd fs _
  | n32 =>
    rw [exec_fxDiv_wide hvar, exec_fxDiv_wide (s := s.disguise g l k) hvar]
    exact fxDivWide_disguise hg hl k fd fs

/-- No command sees through a disguise. -/
theorem exec_disguise (i : Instr) : Alike (exec i s) (exec i (s.disguise g l k)) := by
  cases i
  case fxDiv fd fs => exact exec_fxDiv_disguise hg hl k fd fs
  all_goals dsimp only [exec]
  case add | sub | mul | div | mod | gcd | pow | neg | inc | dec => exact answerKernel_disguise hg hl k _
  case fxEnc fd sg => exact execFxEnc_disguise hg hl k fd sg
  case fxCopy fd fs => exact execFxCopy_disguise hg hl k fd fs
  case fxSetrep fd => exact execFxSetrep_disguise hg hl k fd
  case fxGetrep fs => exact fxRead_disguise hg hl k fs fun x => okResponse (Fx.rep x) 0 x.sign
  case fxGetfld fs => exact fxRead_disguise hg hl k fs fun x => okResponse (zext s.build.W x.packed) 0 x.sign
  case fxStr fs =>
    exact fxRead_disguise hg hl k fs fun x =>
      okResponse (zext s.build.W (Fx.intField x.packed)) (Fx.fracDigits s.build.W x.packed) x.sign
  case fxGetmag fs => exact fxRead_disguise hg hl k fs fun x => okResponse x.mi x.mf false
  case fxAdd fd fs | fxSub fd fs | fxMul fd fs | fxAnd fd fs | fxXor fd fs => exact fxBinary_disguise hg hl k fd fs _
  case fxShl fd sh | fxShr fd sh => exact fxShift_disguise hg hl k fd sh _

end Disguised

/-! ## The step -/

/-- What the host can do next (R48, R183). -/
theorem inputs_cases (s : State) :
    s.inputs = [] ∨ (∃ rest, s.inputs = .handshakeBreach :: rest) ∨ (∃ o rest, s.inputs = .reset o :: rest) ∨
      ∃ c rest, s.inputs = .command c :: rest := by
  cases s.inputs with
  | nil => simp
  | cons input rest => cases input <;> simp

section Step
variable {s : State} {rest : List (HostInput s.build.W)}

/-- An idle core keeps its state (R175). -/
theorem step_of_idle (hin : s.inputs = []) : step s = .next s := by
  rw [step, hin]

theorem step_of_reset {o : Option (Command s.build.W)} (hin : s.inputs = .reset o :: rest) :
    step s = .next (State.resetWith s.build rest s.draws) := by
  rw [step, hin]
  rfl

theorem step_of_breach (hin : s.inputs = .handshakeBreach :: rest) : step s = .fault .handshakeBroken := by
  rw [step, hin]

/-- A command that decodes runs on its own operand words (R51). -/
theorem step_of_decoded {c : Command s.build.W} {i : Instr} (hin : s.inputs = .command c :: rest)
    (hdec : decode c.cmd = .ok i) : step s = exec i (s.accept c rest) := by
  simp only [step, hin, hdec]

end Step

/-- States that the host cannot tell apart step alike, or the host breaks the handshake and neither has a move (R183). -/
theorem step_indistinguishable {s t : State} (h : s.Indistinguishable t) :
    Alike (step s) (step t) ∨ step s = .fault .handshakeBroken ∧ step t = .fault .handshakeBroken := by
  obtain ⟨g, a, b, l, k, rfl, hg, hl⟩ := id h
  obtain hin | ⟨rest, hin⟩ | ⟨o, rest, hin⟩ | ⟨c, rest, hin⟩ := inputs_cases s
  · exact .inl (.congr (step_of_idle hin) (step_of_idle hin) (.next h))
  · exact .inr ⟨step_of_breach hin, step_of_breach hin⟩
  · exact .inl (.congr (step_of_reset hin) (step_of_reset hin) (.next (indistinguishable_resetWith _ rest s.draws k)))
  · cases hdec : decode c.cmd with
    | error e =>
      have hbad : ∀ i, decode c.cmd ≠ .ok i := by simp [hdec]
      exact .inl (.congr (step_of_malformed hin hbad) (step_of_malformed hin hbad)
        (.next (fail_disguise (s := s.accept c rest) hg hl k (by decide))))
    | ok i =>
      exact .inl (.congr (step_of_decoded hin hdec) (step_of_decoded hin hdec)
        (exec_disguise (s := s.accept c rest) hg hl k i))

/-- Settles O19: the host sees the two states step alike, unless it breaks the handshake, and then both fault. -/
theorem unspecifiedNeverShows : Obligations.UnspecifiedNeverShows := by
  intro s t h
  obtain halike | ⟨hs, ht⟩ := step_indistinguishable h
  · generalize step s = o, step t = o' at halike
    obtain ⟨hst⟩ := halike
    exact ⟨fun s' hs' => ⟨_, rfl, Host.Outcome.next.inj hs' ▸ hst⟩, nofun, nofun⟩
  · simp [hs, ht]

end Sys2Proof.Machine
end

section
/-! What one step does for each input of the host: a command that decodes runs on its sampled operand words
(spec/20_memory.md R48, spec/30_encoding.md R51); with no input the core is idle (R175), `rst` gives the reset state (R180), and
after a broken handshake there is no move (R183). -/

namespace Sys2Proof.Machine

/-- Settles O7: the state the command runs at is the one its acceptance leaves (R51). -/
theorem stepRunsTheDecodedCommand : Obligations.StepRunsTheDecodedCommand :=
  fun _ _ _ _ hin hdec => step_of_decoded hin hdec

/-- Settles O8: one clause for each of the host's inputs that is no command. -/
theorem idleResetAndBreachSteps : Obligations.IdleResetAndBreachSteps := by
  refine ⟨fun s hidle => step_of_idle hidle, fun s o rest hreset => ?_, fun s rest hbreach => step_of_breach hbreach⟩
  have hstep : step s = .next (State.resetWith s.build rest s.draws) := step_of_reset hreset
  have hnoAnswer : (State.resetWith s.build rest s.draws).responses.length = 0 := by simp
  exact ⟨hstep, valid_resetWith s.build rest s.draws, hnoAnswer⟩

end Sys2Proof.Machine
end
